-- ==== Sys2Proof/Word.lean ====
section
/-! DEFINITION. The word types of the HMCRC block (spec/00_scope.md R7, R8). -/

namespace Sys2Proof

/-- A command word or a response word: 32 bits (R8). -/
abbrev Word := BitVec 32

/-- One byte of the packet buffer (R26). -/
abbrev Byte := BitVec 8

/-- An accumulator or checksum value: 16 bits (R7). -/
abbrev Crc16 := BitVec 16

/-- A 24-bit address value, or the DATA field of a response (R7, R71). -/
abbrev Data24 := BitVec 24

/-- A buffer offset or a byte count as a command carries it: 12 bits (R8, R63). -/
abbrev Field12 := BitVec 12

end Sys2Proof
end

