-- ==== Sys2Proof/Syntax.lean ====
section
/-! DEFINITION. The commands of the block, one constructor for each row of spec/opcode_table.json
(spec/30_encoding.md R65), the three reserved opcodes among them. -/

namespace Sys2Proof

/-- A decoded command. Operand fields are unsigned numbers of the widths of R63 and R64. -/
inductive Instr where
  /-- CRC_INIT (R83). -/
  | crcInit
  /-- CRC_LOAD imm16 (R84). -/
  | crcLoad (imm16 : Crc16)
  /-- CRC_BYTE imm8 (R85). -/
  | crcByte (imm8 : Byte)
  /-- CRC_BUF off, cnt (R86). -/
  | crcBuf (off : Field12) (cnt : Field12)
  /-- CRC_READ (R87). -/
  | crcRead
  /-- PKT_RDB off (R100). -/
  | pktRdb (off : Field12)
  /-- PKT_WRB off, imm8 (R101). -/
  | pktWrb (off : Field12) (imm8 : Byte)
  /-- GET_SRC (R102). -/
  | getSrc
  /-- SET_SRC imm24 (R103). -/
  | setSrc (imm24 : Data24)
  /-- GET_DST (R104). -/
  | getDst
  /-- SET_DST imm24 (R105). -/
  | setDst (imm24 : Data24)
  /-- GET_PLEN (R106). -/
  | getPlen
  /-- SET_LEN n (R107). -/
  | setLen (n : Byte)
  /-- A word of the reserved opcode 0x0, with its other 28 bits (R66). -/
  | reserved0 (low : BitVec 28)
  /-- A word of the reserved opcode 0xE, with its other 28 bits (R66). -/
  | reservedE (low : BitVec 28)
  /-- A word of the reserved opcode 0xF, with its other 28 bits (R66). -/
  | reservedF (low : BitVec 28)
deriving DecidableEq, Repr

end Sys2Proof
end

