-- ==== Sys2Proof/WellFormed.lean ====
section
/-! DEFINITION. Which commands are legal. The operand fields of `Instr` have the widths of the encoding, so the only
thing left to check is the opcode: the three reserved ones are illegal (spec/30_encoding.md R66). -/

namespace Sys2Proof

/-- The command is one of the 13 defined ones (R65); a reserved opcode is illegal (R66). -/
def Instr.WellFormed : Instr → Bool
  | .crcInit => true
  | .crcLoad _ => true
  | .crcByte _ => true
  | .crcBuf _ _ => true
  | .crcRead => true
  | .pktRdb _ => true
  | .pktWrb _ _ => true
  | .getSrc => true
  | .setSrc _ => true
  | .getDst => true
  | .setDst _ => true
  | .getPlen => true
  | .setLen _ => true
  | .reserved0 _ => false
  | .reservedE _ => false
  | .reservedF _ => false

end Sys2Proof
end

