-- ==== Sys2Proof/Decode.lean ====
section
/-! DEFINITION. Decoding a command word and encoding a command (spec/30_encoding.md R60 to R68). -/

namespace Sys2Proof

/-- The opcode field OPC = w[31:28] (R61). -/
def opcField (w : Word) : BitVec 4 := w.extractLsb' 28 4

/-- IMM16 = w[15:0] (R63). -/
def imm16Field (w : Word) : Crc16 := w.extractLsb' 0 16

/-- IMM8 = w[7:0] (R63). -/
def imm8Field (w : Word) : Byte := w.extractLsb' 0 8

/-- IMM24 = w[23:0] (R63). -/
def imm24Field (w : Word) : Data24 := w.extractLsb' 0 24

/-- OFF = w[23:12] (R63). -/
def offField (w : Word) : Field12 := w.extractLsb' 12 12

/-- CNT = w[11:0] (R63). -/
def cntField (w : Word) : Field12 := w.extractLsb' 0 12

/-- The bits below the opcode of a reserved word (R66). -/
def lowField (w : Word) : BitVec 28 := w.extractLsb' 0 28

/-- A row of the opcode map (R65): the word with every operand field zero, the bits that must equal it, and the
command read from a word the row selects. -/
structure OpcodeRow where
  matchBits : Word
  mask : Word
  read : Word → Instr

/-- "A word selects the command when (w & mask) == match" (R65). -/
def rowSelects (w : Word) (r : OpcodeRow) : Bool := w &&& r.mask == r.matchBits

/-- The opcode map (R65), and the three reserved rows as spec/opcode_table.json gives them (R66). -/
def opcodeMap : List OpcodeRow := [
  ⟨0x10000000#32, 0xFFFFFFFF#32, fun _ => .crcInit⟩,
  ⟨0x20000000#32, 0xFFFF0000#32, fun w => .crcLoad (imm16Field w)⟩,
  ⟨0x30000000#32, 0xFFFFFF00#32, fun w => .crcByte (imm8Field w)⟩,
  ⟨0x40000000#32, 0xFF000000#32, fun w => .crcBuf (offField w) (cntField w)⟩,
  ⟨0x50000000#32, 0xFFFFFFFF#32, fun _ => .crcRead⟩,
  ⟨0x60000000#32, 0xFF000FFF#32, fun w => .pktRdb (offField w)⟩,
  ⟨0x70000000#32, 0xFF000F00#32, fun w => .pktWrb (offField w) (imm8Field w)⟩,
  ⟨0x80000000#32, 0xFFFFFFFF#32, fun _ => .getSrc⟩,
  ⟨0x90000000#32, 0xFF000000#32, fun w => .setSrc (imm24Field w)⟩,
  ⟨0xA0000000#32, 0xFFFFFFFF#32, fun _ => .getDst⟩,
  ⟨0xB0000000#32, 0xFF000000#32, fun w => .setDst (imm24Field w)⟩,
  ⟨0xC0000000#32, 0xFFFFFFFF#32, fun _ => .getPlen⟩,
  ⟨0xD0000000#32, 0xFFFFFF00#32, fun w => .setLen (imm8Field w)⟩,
  ⟨0x00000000#32, 0xF0000000#32, fun w => .reserved0 (lowField w)⟩,
  ⟨0xE0000000#32, 0xF0000000#32, fun w => .reservedE (lowField w)⟩,
  ⟨0xF0000000#32, 0xF0000000#32, fun w => .reservedF (lowField w)⟩]

/-- Why a word is no command. -/
inductive DecodeError where
  /-- The opcode is defined and a must-be-zero bit is set (R67). The block answers ILLEGAL, so nothing stops. -/
  | mustBeZeroBitSet
deriving DecidableEq, Repr

/-- Decoding, total on all 2^32 words (R68). A reserved opcode decodes to its reserved row, whose meaning is
ILLEGAL; a word no row selects has a defined opcode and a must-be-zero bit set (R67). -/
def decode (w : Word) : Except DecodeError Instr :=
  match opcodeMap.find? (rowSelects w) with
  | some r => .ok (r.read w)
  | none => .error .mustBeZeroBitSet

/-- R68's verdict "Illegal": the word decodes to no defined command. -/
def isIllegalWord (w : Word) : Bool :=
  match decode w with
  | .ok i => !i.WellFormed
  | .error _ => true

/-! The seven formats (R63): OPC in w[31:28], zero in w[27:24] (R62), and the layout of w[23:0]. -/

/-- A command word from its opcode and w[23:0]. -/
def commandWord (opc : BitVec 4) (low : Data24) : Word := opc ++ 0#4 ++ low

/-- Format N: no operand. -/
def formatN : Data24 := 0#24

/-- Format H: IMM16 in w[15:0]. -/
def formatH (imm16 : Crc16) : Data24 := 0#8 ++ imm16

/-- Format B: IMM8 in w[7:0]. -/
def formatB (imm8 : Byte) : Data24 := 0#16 ++ imm8

/-- Format A: IMM24 in w[23:0]. -/
def formatA (imm24 : Data24) : Data24 := imm24

/-- Format O: OFF in w[23:12]. -/
def formatO (off : Field12) : Data24 := off ++ 0#12

/-- Format OB: OFF in w[23:12], IMM8 in w[7:0]. -/
def formatOB (off : Field12) (imm8 : Byte) : Data24 := off ++ 0#4 ++ imm8

/-- Format OL: OFF in w[23:12], CNT in w[11:0]. -/
def formatOL (off cnt : Field12) : Data24 := off ++ cnt

/-- A word of a reserved opcode, from its other 28 bits (R66). -/
def reservedWord (opc : BitVec 4) (low : BitVec 28) : Word := opc ++ low

/-- The word of a command: the opcodes of R65 in the formats of R63. A reserved row gives back its own word. -/
def encode : Instr → Word
  | .crcInit => commandWord 0x1#4 formatN
  | .crcLoad imm16 => commandWord 0x2#4 (formatH imm16)
  | .crcByte imm8 => commandWord 0x3#4 (formatB imm8)
  | .crcBuf off cnt => commandWord 0x4#4 (formatOL off cnt)
  | .crcRead => commandWord 0x5#4 formatN
  | .pktRdb off => commandWord 0x6#4 (formatO off)
  | .pktWrb off imm8 => commandWord 0x7#4 (formatOB off imm8)
  | .getSrc => commandWord 0x8#4 formatN
  | .setSrc imm24 => commandWord 0x9#4 (formatA imm24)
  | .getDst => commandWord 0xA#4 formatN
  | .setDst imm24 => commandWord 0xB#4 (formatA imm24)
  | .getPlen => commandWord 0xC#4 formatN
  | .setLen n => commandWord 0xD#4 (formatB n)
  | .reserved0 low => reservedWord 0x0#4 low
  | .reservedE low => reservedWord 0xE#4 low
  | .reservedF low => reservedWord 0xF#4 low

/-- What the decoder reads from a word whose low `nbits` bits are `w`, the bits above them zero. Every command is
one 32-bit word (R60), so a row's word is its 32 bits. -/
def decodeTableWord (nbits w : Nat) : Option Instr :=
  match decode ((BitVec.ofNat nbits w).setWidth 32) with
  | .ok i => some i
  | .error _ => none

end Sys2Proof
end

