-- ==== Sys2Proof/Machine/CrcArith.lean ====
section
/-! DEFINITION. The CRC arithmetic (spec/40_crc.md R80 to R82), for any generator polynomial. -/

namespace Sys2Proof.Machine

/-- One pass of R80's loop: shift left by one, and add the polynomial if bit 15 was set. -/
def crcShift (poly a : Crc16) : Crc16 :=
  if a.getLsbD 15 then (a <<< 1) ^^^ poly else a <<< 1

/-- `n` passes of R80's loop. -/
def crcShifts (poly : Crc16) : Nat → Crc16 → Crc16
  | 0, a => a
  | n + 1, a => crcShifts poly n (crcShift poly a)

/-- crc_step: absorbs one byte, most significant bit first, no reflection, no final XOR (R80). -/
def crcStep (poly acc : Crc16) (b : Byte) : Crc16 :=
  crcShifts poly 8 (acc ^^^ (b.setWidth 16 <<< 8))

/-- crc_fold: crc_step over a byte sequence in order (R81). The source's crc16(data, length, init). -/
def crcFold (poly : Crc16) : Crc16 → List Byte → Crc16
  | init, [] => init
  | init, b :: bs => crcFold poly (crcStep poly init b) bs

/-- An entry of the lookup table: T[i] = crc_step(i << 8, 0) (R82). -/
def crcTableEntry (poly : Crc16) (i : Byte) : Crc16 := crcStep poly (i.setWidth 16 <<< 8) 0#8

/-- The table-driven update (R82). -/
def crcStepByTable (poly acc : Crc16) (b : Byte) : Crc16 :=
  (acc <<< 8) ^^^ crcTableEntry poly (acc.extractLsb' 8 8 ^^^ b)

end Sys2Proof.Machine
end

