-- ==== Sys2Proof/Config.lean ====
section
/-! DEFINITION. The parameters of an instance of the block (spec/00_scope.md R6), and the free values of a reset
during a command (spec/70_reset_and_hazards.md R153). -/

namespace Sys2Proof

/-- The parameters an instance is built with (R6). No command reads or changes them, but CRC_INIT copies
`crc16Init` into ACC (spec/10_state.md R25). -/
structure Params where
  /-- CRC_POLY: the generator without its x^16 term, bit 15 the coefficient of x^15. -/
  crcPoly : Crc16
  /-- CRC16_INIT: the canonical starting accumulator. -/
  crc16Init : Crc16
  /-- PKT_CAP: the capacity of the packet buffer in bytes. -/
  pktCap : Nat
deriving DecidableEq, Repr

/-- The constraints R6 puts on the parameters: CRC_POLY[0] = 1 and 10 <= PKT_CAP <= 4096. -/
abbrev Params.Valid (p : Params) : Prop :=
  p.crcPoly.getLsbD 0 = true ∧ 10 ≤ p.pktCap ∧ p.pktCap ≤ 4096

/-- The spec's default instance (R6; spec/93_implementation_defined.md G2, G3). DESIGN CHOICE, unsafe: State.reset
takes it (log entry 1). -/
def Params.defaultInstance : Params where
  crcPoly := 0x8005#16
  crc16Init := 0xD77F#16
  pktCap := 256

/-- Free value (DESIGN CHOICE, safe, log entry 5): the byte a reset during a command leaves at an offset that command writes
(R153, I5). The argument numbers the draw. -/
opaque Config.freeByte : Nat → Byte

/-- Free value (DESIGN CHOICE, safe, log entry 5): whether the response of a command that a reset met in flight is delivered
(R153, I5). The argument numbers the draw. -/
opaque Config.freeDelivered : Nat → Bool

end Sys2Proof
end

