-- ==== Sys2Proof/Machine/State.lean ====
section
/-! DEFINITION. The state of the block and its host interface as plain data (spec/10_state.md R20 to R30). -/

namespace Sys2Proof.Machine

/-- The packet buffer PKT: the bytes written so far, offsets strictly rising. An offset that is not listed is one
nothing has written since power-up (spec/93_implementation_defined.md I1; DESIGN CHOICE, safe, log entry 2). -/
abbrev Memory := List Host.Cell

/-- The canonical form: offsets strictly rising, so none is listed twice. An unlisted offset reads as no value, and
no entry can equal that. -/
abbrev Memory.wf (m : Memory) : Prop := m.Pairwise (fun c d => c.1 < d.1)

/-- Every listed offset lies in `0 .. cap - 1` (R26, R40). -/
abbrev Memory.fits (cap : Nat) (m : Memory) : Prop := ∀ c ∈ m, c.1 < cap

/-- What the host does to the block (R29, R158). -/
inductive HostMove where
  /-- A command word on the command port; any of the 2^32 words (R158). -/
  | command (w : Word)
  /-- The reset input, asserted between commands (R150). -/
  | reset
  /-- The reset input, asserted while the command `w` is in flight, against the host's duty (R153; DESIGN CHOICE,
  safe, log entry 5). -/
  | resetDuring (w : Word)
deriving DecidableEq, Repr

/-- The block, its instance's parameters and its ports. -/
structure State where
  /-- The instance's parameters: fixed, never written (R6, R25; DESIGN CHOICE, log entry 1). -/
  params : Params
  /-- The CRC accumulator ACC (R21). -/
  acc : Crc16
  /-- The packet buffer PKT (R26). -/
  pkt : Memory
  /-- The host's moves to come, the next one first (R20, R23, R160; DESIGN CHOICE, safe, log entry 3). -/
  hostMoves : List HostMove
  /-- The response words returned so far, the first one first (R71, R160; DESIGN CHOICE, safe, log entry 4).
  No command reads them (R24). -/
  responses : List Word
  /-- The model's own field: the number of the next free draw (R153; DESIGN CHOICE, safe, log entry 5). -/
  freeDraws : Nat
deriving DecidableEq, Repr

/-- What stops the machine. The block's own faults ILLEGAL and RANGE are responses, not these (R133). -/
inductive Fault where
  /-- A command read a byte of PKT that nothing has written (I1: "a model fault (not a block response)"). Raised by
  `memRead`, so by PKT_RDB, GET_SRC, GET_DST, GET_PLEN and CRC_BUF. Safe: the hardware goes on with an unspecified
  byte. -/
  | unwrittenByte (offset : Nat)
deriving DecidableEq, Repr

/-- What the model gives no meaning. -/
inductive Refusal where
  /-- An instruction that has no meaning yet; only an arm of `exec` raises it. Safe. No arm does now. -/
  | notModelled (mnemonic : String)
deriving DecidableEq, Repr

/-- An instance right after power-up and reset: the launch state (R150 to R152, R155). -/
def State.resetWith (p : Params) : State where
  params := p
  acc := p.crc16Init
  pkt := []
  hostMoves := []
  responses := []
  freeDraws := 0

/-- The launch state of the default instance (R6, R155; log entry 1). -/
def State.reset : State := State.resetWith Params.defaultInstance

/-- The outcome of a command or a step. -/
abbrev Result := Host.Outcome State Fault Refusal

end Sys2Proof.Machine
end

