-- ==== Sys2Proof/Machine/Flags.lean ====
section
/-! DEFINITION. The block has no flags or condition codes (spec/10_state.md R24). What it has in their place is the
status of a response, which is not stored; this file gives the statuses and the response word
(spec/30_encoding.md R71, spec/60_exceptions.md R130). -/

namespace Sys2Proof.Machine

/-- The status field ST of a response: exactly these three (R71; spec/93_implementation_defined.md I4). -/
inductive Status where
  | ok
  | illegal
  | range
deriving DecidableEq, Repr

/-- The code of a status in the response word (R71). -/
def statusCode : Status → BitVec 4
  | .ok => 0x0#4
  | .illegal => 0x1#4
  | .range => 0x2#4

/-- The two faults of the block (R130). -/
inductive FaultCause where
  /-- A reserved opcode, or a must-be-zero bit set. -/
  | illegal
  /-- A buffer operand out of range. -/
  | range
deriving DecidableEq, Repr

/-- The status that reports a fault (R130). -/
def causeStatus : FaultCause → Status
  | .illegal => .illegal
  | .range => .range

/-- The response word: ST in 31:28, zero in 27:24, DATA in 23:0 (R71). -/
def responseWord (st : Status) (d : Data24) : Word := statusCode st ++ 0#4 ++ d

/-- The ST field of a response word (R71). -/
def responseStatus (w : Word) : BitVec 4 := w.extractLsb' 28 4

/-- The DATA field of a response word (R71). -/
def responseData (w : Word) : Data24 := w.extractLsb' 0 24

end Sys2Proof.Machine
end

