-- ==== Sys2Proof/Machine/Ops.lean ====
section
/-! DEFINITION. The named operations over the packet buffer, the accumulator and the ports
(spec/00_scope.md R10), raising a fault (spec/60_exceptions.md R131) and reset (spec/70_reset_and_hazards.md R150,
R153). -/

namespace Sys2Proof.Machine

/-- The byte at an offset, or none where nothing has written it (spec/93_implementation_defined.md I1). -/
def memLookup : Memory → Nat → Option Byte
  | [], _ => none
  | (b, v) :: m, off => if b = off then some v else memLookup m off

/-- The buffer with one byte stored; the canonical form is kept. -/
def memStore : Memory → Nat → Byte → Memory
  | [], off, v => [(off, v)]
  | (b, u) :: m, off, v =>
    if off < b then (off, v) :: (b, u) :: m
    else if off = b then (off, v) :: m
    else (b, u) :: memStore m off v

/-- MemRead(off, 1) (R10). A byte nothing has written is a model fault (I1; DESIGN CHOICE, safe, log entry
2). -/
def memRead (s : State) (off : Nat) : Except Fault Byte :=
  match memLookup s.pkt off with
  | some v => .ok v
  | none => .error (.unwrittenByte off)

/-- MemWrite(off, 1, v) (R10). -/
def memWrite (off : Nat) (v : Byte) (s : State) : State := { s with pkt := memStore s.pkt off v }

/-- The bytes at `off .. off + n - 1`, read in increasing offset order (spec/20_memory.md R43). -/
def memReadRange (s : State) (off : Nat) : Nat → Except Fault (List Byte)
  | 0 => .ok []
  | n + 1 =>
    match memRead s off with
    | .error f => .error f
    | .ok b =>
      match memReadRange s (off + 1) n with
      | .error f => .error f
      | .ok bs => .ok (b :: bs)

/-- ACC <- v (R10). -/
def accWrite (v : Crc16) (s : State) : State := { s with acc := v }

/-- respond(st, d): one more response word on the response port (R10, R71). -/
def respond (st : Status) (d : Data24) (s : State) : State :=
  { s with responses := s.responses ++ [responseWord st d] }

/-- A command that ends with respond(OK, d) (R10). -/
def complete (d : Data24) (s : State) : Result := .next (respond .ok d s)

/-- raise ILLEGAL(w) and raise RANGE(w): the command ends with that status and DATA = 0, and ACC and PKT stay as
they were. A fault is no trap: nothing is saved and the next command runs normally (R131, R133; DEDUCED,
safe, log entry 6). -/
def raiseFault (c : FaultCause) (s : State) : Result := .next (respond (causeStatus c) 0#24 s)

/-- Goes on with what a read gives, or stops with the read's fault. -/
def afterRead {α : Type} (r : Except Fault α) (k : α → Result) : Result :=
  match r with
  | .ok a => k a
  | .error f => .fault f

/-- The reset input between commands: ACC <- CRC16_INIT and nothing else (R150, R151). -/
def assertReset (s : State) : State := { s with acc := s.params.crc16Init }

/-- Each listed offset takes a free byte, the draws numbered from `n` (R153). -/
def storeFreeBytes : List Nat → Nat → Memory → Memory
  | [], _, m => m
  | off :: offs, n, m => storeFreeBytes offs (n + 1) (memStore m off (Config.freeByte n))

/-- A reset met a command in flight: `before` is the state the command started from, `after` the one it would have
left, `offs` the offsets it writes. Each of those bytes holds a free value, the response is delivered or not, ACC is
CRC16_INIT, and every other byte is as before (R153, I5). -/
def abandonCommand (offs : List Nat) (before after : State) : State :=
  { before with
    acc := before.params.crc16Init
    pkt := storeFreeBytes offs before.freeDraws before.pkt
    responses := if Config.freeDelivered before.freeDraws then after.responses else before.responses
    freeDraws := before.freeDraws + offs.length + 1 }

/-- The host's next move, and the state without it (R20, R23). -/
def takeMove (s : State) : Option (HostMove × State) :=
  match s.hostMoves with
  | [] => none
  | m :: ms => some (m, { s with hostMoves := ms })

end Sys2Proof.Machine
end

