-- ==== Sys2Proof/Machine/Operands.lean ====
section
/-! DEFINITION. The buffer operands of the commands: the fields of the packet buffer (spec/10_state.md R27), the range
checks (spec/20_memory.md R44), the big-endian address fields (R42) and the length arithmetic
(spec/41_packet_codec.md R106, R107). -/

namespace Sys2Proof.Machine

/-- The offset of LEN (R27). -/
def offLen : Nat := 0
/-- The offset of MSGID (R27). -/
def offMsgid : Nat := 1
/-- The offset of CTL (R27). -/
def offCtl : Nat := 2
/-- The offset of TYPE (R27). -/
def offType : Nat := 3
/-- The base offset of SRC (R27). -/
def offSrc : Nat := 4
/-- The base offset of DST (R27). -/
def offDst : Nat := 7
/-- PAYLOAD: the offset of the first payload byte (R7, R27). -/
def offPayload : Nat := 10
/-- The length bias: LEN = PAYLOADLEN + 9 (R7, R28). -/
def lenBias : Nat := 9

/-- The offset operand of PKT_RDB and PKT_WRB is in range (R44). -/
def offsetInRange (s : State) (off : Field12) : Bool := off.toNat < s.params.pktCap

/-- The range operand of CRC_BUF is in range, compared as integers with no wrap (R44, R86). -/
def spanInRange (s : State) (off cnt : Field12) : Bool := off.toNat + cnt.toNat ≤ s.params.pktCap

/-- zext_24 of a byte (R9). -/
def zextByte (b : Byte) : Data24 := b.setWidth 24

/-- zext_24 of an accumulator value (R9). -/
def zextCrc (a : Crc16) : Data24 := a.setWidth 24

/-- sext_24 of an integer: its 24-bit two's complement (R9). -/
def sextInt (p : Int) : Data24 := BitVec.ofInt 24 p

/-- A big-endian 24-bit field at base offset `base`: bits 23:16 at `base` (R42). -/
def readField24 (s : State) (base : Nat) : Except Fault Data24 :=
  match memRead s base, memRead s (base + 1), memRead s (base + 2) with
  | .ok hi, .ok mid, .ok lo => .ok (hi ++ mid ++ lo)
  | .error f, _, _ => .error f
  | .ok _, .error f, _ => .error f
  | .ok _, .ok _, .error f => .error f

/-- Stores a 24-bit value big-endian at base offset `base` (R42). -/
def writeField24 (base : Nat) (v : Data24) (s : State) : State :=
  memWrite (base + 2) (v.extractLsb' 0 8)
    (memWrite (base + 1) (v.extractLsb' 8 8)
      (memWrite base (v.extractLsb' 16 8) s))

/-- The payload length a LEN byte stands for: the integer LEN - 9, in -9 .. 246 (R106). -/
def payloadLength (len : Byte) : Int := (len.toNat : Int) - (lenBias : Int)

/-- The LEN byte for a payload length: (n + 9) mod 256 (R107). -/
def lenByte (n : Byte) : Byte := BitVec.ofNat 8 ((n.toNat + lenBias) % 256)

/-- The offsets a command writes when it runs in an instance of capacity `cap` (R41, R153). -/
def writtenOffsets (cap : Nat) : Instr → List Nat
  | .crcInit => []
  | .crcLoad _ => []
  | .crcByte _ => []
  | .crcBuf _ _ => []
  | .crcRead => []
  | .pktRdb _ => []
  | .pktWrb off _ => if off.toNat < cap then [off.toNat] else []
  | .getSrc => []
  | .setSrc _ => [offSrc, offSrc + 1, offSrc + 2]
  | .getDst => []
  | .setDst _ => [offDst, offDst + 1, offDst + 2]
  | .getPlen => []
  | .setLen _ => [offLen]
  | .reserved0 _ => []
  | .reservedE _ => []
  | .reservedF _ => []

end Sys2Proof.Machine
end

