-- ==== Sys2Proof/Machine/CrcUnit.lean ====
section
/-! DEFINITION. The meanings of the CRC unit's commands (spec/40_crc.md R83 to R87). -/

namespace Sys2Proof.Machine

/-- CRC_INIT (R83). -/
def execCrcInit (s : State) : Result := complete 0#24 (accWrite s.params.crc16Init s)

/-- CRC_LOAD (R84). -/
def execCrcLoad (imm16 : Crc16) (s : State) : Result := complete 0#24 (accWrite imm16 s)

/-- CRC_BYTE (R85). -/
def execCrcByte (imm8 : Byte) (s : State) : Result :=
  complete 0#24 (accWrite (crcStep s.params.crcPoly s.acc imm8) s)

/-- CRC_BUF (R86). -/
def execCrcBuf (off cnt : Field12) (s : State) : Result :=
  if spanInRange s off cnt then
    afterRead (memReadRange s off.toNat cnt.toNat) fun bytes =>
      complete 0#24 (accWrite (crcFold s.params.crcPoly s.acc bytes) s)
  else raiseFault .range s

/-- CRC_READ (R87). -/
def execCrcRead (s : State) : Result := complete (zextCrc s.acc) s

end Sys2Proof.Machine
end

