-- ==== Sys2Proof/Machine/PacketCodec.lean ====
section
/-! DEFINITION. The meanings of the field codec unit's commands (spec/41_packet_codec.md R100 to R107). -/

namespace Sys2Proof.Machine

/-- PKT_RDB (R100). -/
def execPktRdb (off : Field12) (s : State) : Result :=
  if offsetInRange s off then afterRead (memRead s off.toNat) fun b => complete (zextByte b) s
  else raiseFault .range s

/-- PKT_WRB (R101). -/
def execPktWrb (off : Field12) (imm8 : Byte) (s : State) : Result :=
  if offsetInRange s off then complete 0#24 (memWrite off.toNat imm8 s)
  else raiseFault .range s

/-- GET_SRC (R102). -/
def execGetSrc (s : State) : Result := afterRead (readField24 s offSrc) fun v => complete v s

/-- SET_SRC (R103). -/
def execSetSrc (imm24 : Data24) (s : State) : Result := complete 0#24 (writeField24 offSrc imm24 s)

/-- GET_DST (R104). -/
def execGetDst (s : State) : Result := afterRead (readField24 s offDst) fun v => complete v s

/-- SET_DST (R105). -/
def execSetDst (imm24 : Data24) (s : State) : Result := complete 0#24 (writeField24 offDst imm24 s)

/-- GET_PLEN (R106). -/
def execGetPlen (s : State) : Result :=
  afterRead (memRead s offLen) fun len => complete (sextInt (payloadLength len)) s

/-- SET_LEN (R107). -/
def execSetLen (n : Byte) (s : State) : Result := complete 0#24 (memWrite offLen (lenByte n) s)

end Sys2Proof.Machine
end

