-- ==== Sys2Proof/Machine/Reserved.lean ====
section
/-! DEFINITION. The meanings of the reserved opcodes: every word of one raises ILLEGAL (spec/30_encoding.md R66,
spec/60_exceptions.md R130, R131). -/

namespace Sys2Proof.Machine

/-- A word of the reserved opcode 0x0, the all-zero word among them (R66). -/
def execReserved0 (_low : BitVec 28) (s : State) : Result := raiseFault .illegal s

/-- A word of the reserved opcode 0xE (R66). -/
def execReservedE (_low : BitVec 28) (s : State) : Result := raiseFault .illegal s

/-- A word of the reserved opcode 0xF (R66). -/
def execReservedF (_low : BitVec 28) (s : State) : Result := raiseFault .illegal s

end Sys2Proof.Machine
end

