-- ==== Sys2Proof/Machine/Dispatch.lean ====
section
/-! DEFINITION. What each command does: one arm per constructor (spec/30_encoding.md R65). -/

namespace Sys2Proof.Machine

def exec (i : Instr) (s : State) : Host.Outcome State Fault Refusal :=
  match i with
  | .crcInit => Sys2Proof.Machine.execCrcInit s
  | .crcLoad imm16 => Sys2Proof.Machine.execCrcLoad imm16 s
  | .crcByte imm8 => Sys2Proof.Machine.execCrcByte imm8 s
  | .crcBuf off cnt => Sys2Proof.Machine.execCrcBuf off cnt s
  | .crcRead => Sys2Proof.Machine.execCrcRead s
  | .pktRdb off => Sys2Proof.Machine.execPktRdb off s
  | .pktWrb off imm8 => Sys2Proof.Machine.execPktWrb off imm8 s
  | .getSrc => Sys2Proof.Machine.execGetSrc s
  | .setSrc imm24 => Sys2Proof.Machine.execSetSrc imm24 s
  | .getDst => Sys2Proof.Machine.execGetDst s
  | .setDst imm24 => Sys2Proof.Machine.execSetDst imm24 s
  | .getPlen => Sys2Proof.Machine.execGetPlen s
  | .setLen n => Sys2Proof.Machine.execSetLen n s
  | .reserved0 low => Sys2Proof.Machine.execReserved0 low s
  | .reservedE low => Sys2Proof.Machine.execReservedE low s
  | .reservedF low => Sys2Proof.Machine.execReservedF low s

end Sys2Proof.Machine
end

