-- ==== Sys2Proof/Machine/Command.lean ====
section
/-! DEFINITION. One command word, one move of the host, and a run with its observation (spec/10_state.md R20,
spec/70_reset_and_hazards.md R150, R153, R160). -/

namespace Sys2Proof.Machine

/-- The block executes one command word. Decoding comes before every range check (spec/60_exceptions.md R132), and a
word that is no command raises ILLEGAL (R67, R130). -/
def execWord (w : Word) (s : State) : Result :=
  match decode w with
  | .ok i => exec i s
  | .error _ => raiseFault .illegal s

/-- The offsets a command word writes in an instance of capacity `cap` (R41, R153). -/
def wordWrittenOffsets (cap : Nat) (w : Word) : List Nat :=
  match decode w with
  | .ok i => writtenOffsets cap i
  | .error _ => []

/-- The reset input is asserted while the command `w` is in flight (R153, I5; log entry 5). -/
def execInterruptedWord (w : Word) (s : State) : Result :=
  match execWord w s with
  | .next t => .next (abandonCommand (wordWrittenOffsets s.params.pktCap w) s t)
  | .fault f => .fault f
  | .refused r => .refused r

/-- One move of the host. -/
def execMove (m : HostMove) (s : State) : Result :=
  match m with
  | .command w => execWord w s
  | .reset => .next (assertReset s)
  | .resetDuring w => execInterruptedWord w s

/-- The host's next move, if there is one; between commands the block is idle, and idling changes no state
(spec/60_exceptions.md R141; DEDUCED, safe, log entry 10). -/
def execNextMove (s : State) : Result :=
  match takeMove s with
  | some (m, s') => execMove m s'
  | none => .next s

/-- The host places one more command word before its other moves. -/
def placeCommand (s : State) (w : Word) : State := { s with hostMoves := .command w :: s.hostMoves }

/-- Commands executed one after another (R50). -/
def execAll : List Instr → State → Result
  | [], s => .next s
  | i :: is, s =>
    match exec i s with
    | .next t => execAll is t
    | .fault f => .fault f
    | .refused r => .refused r

/-- A run: the words issued in order from a start state, to the response to the last one (R160). -/
def runWords : List Word → State → Result
  | [], s => .next s
  | w :: ws, s =>
    match execWord w s with
    | .next t => runWords ws t
    | .fault f => .fault f
    | .refused r => .refused r

/-- The observation of a run (R160): the response words in order, the final ACC, and the final PKT with the bytes
nothing has written marked as such. -/
structure Observation where
  responses : List Word
  acc : Crc16
  pkt : List (Option Byte)
deriving DecidableEq, Repr

/-- What the host observes in a state (R160). -/
def observe (s : State) : Observation where
  responses := s.responses
  acc := s.acc
  pkt := (List.range s.params.pktCap).map (memLookup s.pkt)

end Sys2Proof.Machine
end

