-- ==== Sys2Proof/Machine/Step.lean ====
section
/-! DEFINITION. One step: the block takes the host's next move and executes it whole (spec/10_state.md R20,
spec/20_memory.md R45, spec/70_reset_and_hazards.md R159). -/

namespace Sys2Proof.Machine

/-- One step: the host's next move, or idling where there is none. -/
def step (s : State) : Host.Outcome State Fault Refusal := execNextMove s

/-- The state with one command word placed as the host's next move, so that `step` runs exactly it. -/
def State.withFetchWord (s : State) (nbits w : Nat) : State :=
  placeCommand s ((BitVec.ofNat nbits w).setWidth 32)

end Sys2Proof.Machine
end

