-- ==== Sys2Proof/Machine/Assembler.lean ====
section
/-! DEFINITION. The assembler: operand checks, pseudo-instructions and source text (spec/30_encoding.md R72, R73). -/

namespace Sys2Proof.Machine

/-- A command as an assembler line names it: its operands are numbers of any size (R72). -/
inductive AsmCommand where
  | crcInit
  | crcLoad (imm16 : Nat)
  | crcByte (imm8 : Nat)
  | crcBuf (off : Nat) (cnt : Nat)
  | crcRead
  | pktRdb (off : Nat)
  | pktWrb (off : Nat) (imm8 : Nat)
  | getSrc
  | setSrc (imm24 : Nat)
  | getDst
  | setDst (imm24 : Nat)
  | getPlen
  | setLen (n : Nat)
deriving DecidableEq, Repr

/-- The pseudo-instructions (R73). -/
inductive Pseudo where
  | crc16 (init : Nat) (off : Nat) (cnt : Nat)
  | crc16Fresh (off : Nat) (cnt : Nat)
  | setMsgid (v : Nat)
  | setCtl (v : Nat)
  | setType (v : Nat)
  | getMsgid
  | getCtl
  | getType
  | getLen
  | setPayload (k : Nat) (v : Nat)
deriving DecidableEq, Repr

/-- What a line of assembler source asks for. -/
inductive AsmLine where
  | command (c : AsmCommand)
  | pseudo (p : Pseudo)
deriving DecidableEq, Repr

/-- Why the assembler refuses a line. -/
inductive AsmError where
  /-- The mnemonic is none of R72 and R73. -/
  | unknownMnemonic
  /-- The number of operands is not the mnemonic's. -/
  | operandCount
  /-- An operand is no decimal or 0x number. -/
  | badNumber
  /-- An operand does not fit its field (R72). -/
  | operandTooLarge
deriving DecidableEq, Repr

/-- Every operand fits its field (R72); the range against PKT_CAP is the block's check, not the assembler's. -/
def asmFits : AsmCommand → Bool
  | .crcInit => true
  | .crcLoad imm16 => imm16 ≤ 0xFFFF
  | .crcByte imm8 => imm8 ≤ 0xFF
  | .crcBuf off cnt => off ≤ 4095 && cnt ≤ 4095
  | .crcRead => true
  | .pktRdb off => off ≤ 4095
  | .pktWrb off imm8 => off ≤ 4095 && imm8 ≤ 0xFF
  | .getSrc => true
  | .setSrc imm24 => imm24 ≤ 0xFFFFFF
  | .getDst => true
  | .setDst imm24 => imm24 ≤ 0xFFFFFF
  | .getPlen => true
  | .setLen n => n ≤ 0xFF

/-- The command with its operands in their fields. -/
def asmInstr : AsmCommand → Instr
  | .crcInit => .crcInit
  | .crcLoad imm16 => .crcLoad (BitVec.ofNat 16 imm16)
  | .crcByte imm8 => .crcByte (BitVec.ofNat 8 imm8)
  | .crcBuf off cnt => .crcBuf (BitVec.ofNat 12 off) (BitVec.ofNat 12 cnt)
  | .crcRead => .crcRead
  | .pktRdb off => .pktRdb (BitVec.ofNat 12 off)
  | .pktWrb off imm8 => .pktWrb (BitVec.ofNat 12 off) (BitVec.ofNat 8 imm8)
  | .getSrc => .getSrc
  | .setSrc imm24 => .setSrc (BitVec.ofNat 24 imm24)
  | .getDst => .getDst
  | .setDst imm24 => .setDst (BitVec.ofNat 24 imm24)
  | .getPlen => .getPlen
  | .setLen n => .setLen (BitVec.ofNat 8 n)

/-- The assembler's name for a decoded command, its operands as numbers; a reserved opcode has none (R66). -/
def disassemble : Instr → Option AsmCommand
  | .crcInit => some .crcInit
  | .crcLoad imm16 => some (.crcLoad imm16.toNat)
  | .crcByte imm8 => some (.crcByte imm8.toNat)
  | .crcBuf off cnt => some (.crcBuf off.toNat cnt.toNat)
  | .crcRead => some .crcRead
  | .pktRdb off => some (.pktRdb off.toNat)
  | .pktWrb off imm8 => some (.pktWrb off.toNat imm8.toNat)
  | .getSrc => some .getSrc
  | .setSrc imm24 => some (.setSrc imm24.toNat)
  | .getDst => some .getDst
  | .setDst imm24 => some (.setDst imm24.toNat)
  | .getPlen => some .getPlen
  | .setLen n => some (.setLen n.toNat)
  | .reserved0 _ => none
  | .reservedE _ => none
  | .reservedF _ => none

/-- The word of a command; an operand that does not fit is refused, not truncated (R72). -/
def assembleCommand (c : AsmCommand) : Except AsmError Word :=
  if asmFits c then .ok (encode (asmInstr c)) else .error .operandTooLarge

/-- The words of commands in order, or the first refusal. -/
def assembleCommands : List AsmCommand → Except AsmError (List Word)
  | [] => .ok []
  | c :: cs =>
    match assembleCommand c with
    | .error e => .error e
    | .ok w =>
      match assembleCommands cs with
      | .error e => .error e
      | .ok ws => .ok (w :: ws)

/-- The exact expansions of the pseudo-instructions (R73). -/
def expandPseudo : Pseudo → List AsmCommand
  | .crc16 init off cnt => [.crcLoad init, .crcBuf off cnt, .crcRead]
  | .crc16Fresh off cnt => [.crcInit, .crcBuf off cnt, .crcRead]
  | .setMsgid v => [.pktWrb offMsgid v]
  | .setCtl v => [.pktWrb offCtl v]
  | .setType v => [.pktWrb offType v]
  | .getMsgid => [.pktRdb offMsgid]
  | .getCtl => [.pktRdb offCtl]
  | .getType => [.pktRdb offType]
  | .getLen => [.pktRdb offLen]
  | .setPayload k v => [.pktWrb (offPayload + k) v]

/-- The words a line stands for. -/
def assembleLine : AsmLine → Except AsmError (List Word)
  | .command c => assembleCommands [c]
  | .pseudo p => assembleCommands (expandPseudo p)

/-! Source text (R72): one command a line, operands separated by commas, a comment from a semicolon on. -/

/-- A space, a tab or a carriage return (DESIGN CHOICE, log entry 7). -/
def isBlank (c : Char) : Bool := c == ' ' || c == '\t' || c == '\r'

/-- The text without blanks at its ends. -/
def trimText (cs : List Char) : List Char := ((cs.dropWhile isBlank).reverse.dropWhile isBlank).reverse

/-- The pieces of a text between the separators `sep`. -/
def splitText (sep : Char) : List Char → List (List Char)
  | [] => [[]]
  | c :: cs =>
    if c == sep then [] :: splitText sep cs
    else
      match splitText sep cs with
      | [] => [[c]]
      | p :: ps => (c :: p) :: ps

/-- The value of a hexadecimal digit, capital or small (DESIGN CHOICE, log entry 7). -/
def hexDigit (c : Char) : Option Nat :=
  if '0' ≤ c ∧ c ≤ '9' then some (c.toNat - '0'.toNat)
  else if 'a' ≤ c ∧ c ≤ 'f' then some (c.toNat - 'a'.toNat + 10)
  else if 'A' ≤ c ∧ c ≤ 'F' then some (c.toNat - 'A'.toNat + 10)
  else none

/-- The value of digits in a base, from the value of those before them. -/
def digitsValue (base : Nat) : Nat → List Char → Option Nat
  | n, [] => some n
  | n, c :: cs =>
    match hexDigit c with
    | some d => if d < base then digitsValue base (n * base + d) cs else none
    | none => none

/-- A number: decimal, or hexadecimal after 0x (R72). -/
def parseNumber : List Char → Except AsmError Nat
  | [] => .error .badNumber
  | ['0', 'x'] => .error .badNumber
  | '0' :: 'x' :: ds =>
    match digitsValue 16 0 ds with
    | some n => .ok n
    | none => .error .badNumber
  | ds =>
    match digitsValue 10 0 ds with
    | some n => .ok n
    | none => .error .badNumber

/-- The numbers of a list of operands, or the first refusal. -/
def parseNumbers : List (List Char) → Except AsmError (List Nat)
  | [] => .ok []
  | t :: ts =>
    match parseNumber (trimText t) with
    | .error e => .error e
    | .ok n =>
      match parseNumbers ts with
      | .error e => .error e
      | .ok ns => .ok (n :: ns)

/-- The mnemonics of R72 and R73. -/
def asmMnemonics : List String := [
  "CRC_INIT", "CRC_LOAD", "CRC_BYTE", "CRC_BUF", "CRC_READ", "PKT_RDB", "PKT_WRB", "GET_SRC", "SET_SRC", "GET_DST",
  "SET_DST", "GET_PLEN", "SET_LEN", "CRC16", "CRC16_FRESH", "SET_MSGID", "SET_CTL", "SET_TYPE", "GET_MSGID", "GET_CTL",
  "GET_TYPE", "GET_LEN", "SET_PAYLOAD"]

/-- A mnemonic with its operands, in the order R72 and R73 list them. -/
def asmLineOf (mnemonic : String) (operands : List Nat) : Except AsmError AsmLine :=
  match mnemonic, operands with
  | "CRC_INIT", [] => .ok (.command .crcInit)
  | "CRC_LOAD", [imm16] => .ok (.command (.crcLoad imm16))
  | "CRC_BYTE", [imm8] => .ok (.command (.crcByte imm8))
  | "CRC_BUF", [off, cnt] => .ok (.command (.crcBuf off cnt))
  | "CRC_READ", [] => .ok (.command .crcRead)
  | "PKT_RDB", [off] => .ok (.command (.pktRdb off))
  | "PKT_WRB", [off, imm8] => .ok (.command (.pktWrb off imm8))
  | "GET_SRC", [] => .ok (.command .getSrc)
  | "SET_SRC", [imm24] => .ok (.command (.setSrc imm24))
  | "GET_DST", [] => .ok (.command .getDst)
  | "SET_DST", [imm24] => .ok (.command (.setDst imm24))
  | "GET_PLEN", [] => .ok (.command .getPlen)
  | "SET_LEN", [n] => .ok (.command (.setLen n))
  | "CRC16", [init, off, cnt] => .ok (.pseudo (.crc16 init off cnt))
  | "CRC16_FRESH", [off, cnt] => .ok (.pseudo (.crc16Fresh off cnt))
  | "SET_MSGID", [v] => .ok (.pseudo (.setMsgid v))
  | "SET_CTL", [v] => .ok (.pseudo (.setCtl v))
  | "SET_TYPE", [v] => .ok (.pseudo (.setType v))
  | "GET_MSGID", [] => .ok (.pseudo .getMsgid)
  | "GET_CTL", [] => .ok (.pseudo .getCtl)
  | "GET_TYPE", [] => .ok (.pseudo .getType)
  | "GET_LEN", [] => .ok (.pseudo .getLen)
  | "SET_PAYLOAD", [k, v] => .ok (.pseudo (.setPayload k v))
  | _, _ => if asmMnemonics.contains mnemonic then .error .operandCount else .error .unknownMnemonic

/-- A line without its comment and the blanks around it. -/
def stripLine (cs : List Char) : List Char := trimText (cs.takeWhile (· != ';'))

/-- What a line of source asks for; a line with no command asks for nothing (DESIGN CHOICE, log entry 7). -/
def parseLine (cs : List Char) : Except AsmError (Option AsmLine) :=
  let text := stripLine cs
  let mnemonic := text.takeWhile (fun c => !isBlank c)
  let rest := trimText (text.dropWhile (fun c => !isBlank c))
  if mnemonic.isEmpty then .ok none
  else
    match parseNumbers (if rest.isEmpty then [] else splitText ',' rest) with
    | .error e => .error e
    | .ok operands =>
      match asmLineOf (String.ofList mnemonic) operands with
      | .error e => .error e
      | .ok l => .ok (some l)

/-- The words of the lines of a source text, in order. -/
def assembleLines : List (List Char) → Except AsmError (List Word)
  | [] => .ok []
  | l :: ls =>
    match parseLine l with
    | .error e => .error e
    | .ok none => assembleLines ls
    | .ok (some a) =>
      match assembleLine a with
      | .error e => .error e
      | .ok ws =>
        match assembleLines ls with
        | .error e => .error e
        | .ok rest => .ok (ws ++ rest)

/-- A source text, assembled to the host's list of command words (R23, R72). -/
def assemble (source : String) : Except AsmError (List Word) := assembleLines (splitText '\n' source.toList)

end Sys2Proof.Machine
end

