-- ==== Sys2Proof/Safety.lean ====
section
/-! DEFINITION. The terms in which claims about the block are made: the invariant of its states, the answers a command
gives, a run without recorded faults, and the reading of a bit vector as a polynomial. -/

namespace Sys2Proof.Safety

open Sys2Proof.Machine

/-- A response word as R71 allows it: bits 27:24 zero, and status OK, or ILLEGAL or RANGE with DATA = 0. -/
abbrev ResponseForm (r : Word) : Prop :=
  r.extractLsb' 24 4 = 0#4 ∧ (responseStatus r = 0x0#4 ∨ r = 0x10000000#32 ∨ r = 0x20000000#32)

/-- What every state of a run meets: parameters within R6's constraints, the packet buffer in canonical form and within
its capacity (R26), and every response of R71's form. -/
def Inv (s : State) : Prop :=
  s.params.Valid ∧ Memory.wf s.pkt ∧ Memory.fits s.params.pktCap s.pkt ∧ ∀ r ∈ s.responses, ResponseForm r

/-- No response so far reports a fault: the premise "no fault" of a claim about a run
(spec/93_implementation_defined.md I2). -/
def FaultFree (s : State) : Prop := ∀ r ∈ s.responses, responseStatus r = 0x0#4

/-- The state `s` with one more response word `r`. -/
def answered (r : Word) (s : State) : State := { s with responses := s.responses ++ [r] }

/-- The command ends with the response ILLEGAL, 0x10000000, and nothing else changes (R131). -/
def illegalAnswer (s : State) : Result := .next (answered 0x10000000#32 s)

/-- The command ends with the response RANGE, 0x20000000, and nothing else changes (R131). -/
def rangeAnswer (s : State) : Result := .next (answered 0x20000000#32 s)

/-- A legal word whose buffer operand is out of range (R44, R130). -/
def outOfRange (s : State) : Instr → Prop
  | .pktRdb off => s.params.pktCap ≤ off.toNat
  | .pktWrb off _ => s.params.pktCap ≤ off.toNat
  | .crcBuf off cnt => s.params.pktCap < off.toNat + cnt.toNat
  | _ => False

/-- The bytes `d` stand in the packet buffer from offset `off` on. -/
def HoldsBytes (s : State) (off : Nat) (d : List Byte) : Prop :=
  ∀ k (h : k < d.length), memLookup s.pkt (off + k) = some d[k]

/-- The opcodes that R66 reserves. -/
def reservedOpcode (w : Word) : Prop := opcField w = 0x0#4 ∨ opcField w = 0xE#4 ∨ opcField w = 0xF#4

/-- Bits 27:24 and the format's own `0` fields are all zero (R62, R63), format by format. -/
def zeroFieldsClear (w : Word) : Prop :=
  w.extractLsb' 24 4 = 0#4 ∧
  (opcField w ∈ [0x1#4, 0x5#4, 0x8#4, 0xA#4, 0xC#4] → w.extractLsb' 0 24 = 0#24) ∧
  (opcField w = 0x2#4 → w.extractLsb' 16 8 = 0#8) ∧
  (opcField w ∈ [0x3#4, 0xD#4] → w.extractLsb' 8 16 = 0#16) ∧
  (opcField w = 0x6#4 → w.extractLsb' 0 12 = 0#12) ∧
  (opcField w = 0x7#4 → w.extractLsb' 8 4 = 0#4)

/-- `p` is the polynomial over GF(2) that a bit vector stands for: bit i is the coefficient of x^i (R80). -/
def IsPolyOf {n : Nat} (p : Polynomial (ZMod 2)) (v : BitVec n) : Prop :=
  ∀ i, p.coeff i = if v.getLsbD i then 1 else 0

end Sys2Proof.Safety
end

