-- ==== Sys2Proof/Certificates/Slice0/Obligations.lean ====
section
/-! DEFINITION. The statements for the provers. Each docstring names the rule of spec/ that it formalises. -/

open Sys2Proof Sys2Proof.Machine Sys2Proof.Safety

/-! ## Reset, step and decoding -/

/-- R150: the reset input, taken as the host's next move, writes CRC16_INIT to ACC and changes nothing else. -/
def Obligations.ResetInputLoadsAccumulatorOnly : Prop :=
  ∀ (s : State) (ms : List HostMove), s.hostMoves = .reset :: ms →
    step s = .next { s with acc := s.params.crc16Init, hostMoves := ms }

/-- R155: the launch state of any instance has ACC = CRC16_INIT, every byte of PKT unwritten, and no command in
flight. -/
def Obligations.LaunchStateOfEveryInstance : Prop :=
  ∀ p : Params, (State.resetWith p).params = p ∧ (State.resetWith p).acc = p.crc16Init ∧
    (∀ off, memLookup (State.resetWith p).pkt off = none) ∧ (State.resetWith p).hostMoves = []

/-- The launch state of an instance within R6's constraints meets the invariant. That `State.reset` is the default
instance's is the model's choice (log entry 1), and so is the empty response list (log entry 4). -/
def Obligations.LaunchStateMeetsInvariant : Prop :=
  Inv State.reset ∧ ∀ p : Params, p.Valid → Inv (State.resetWith p)

/-- A step takes the host's next move whole: a word that decodes runs as the decoded command, a word that does not
raises ILLEGAL, and with no move the block idles. Holding the moves in State is the model's choice (log entry 3). -/
def Obligations.StepRunsTheDecodedCommand : Prop :=
  (∀ (s : State) (w : Word) (ms : List HostMove) (i : Instr), s.hostMoves = .command w :: ms → decode w = .ok i →
    step s = exec i { s with hostMoves := ms }) ∧
  (∀ (s : State) (w : Word) (ms : List HostMove) (e : DecodeError), s.hostMoves = .command w :: ms →
    decode w = .error e → step s = illegalAnswer { s with hostMoves := ms }) ∧
  (∀ s : State, s.hostMoves = [] → step s = .next s)

/-- Words written out from the encodings of R63 and R65, one for each family, decode to their commands. -/
def Obligations.WrittenOutWordsDecode : Prop :=
  decode 0x10000000#32 = .ok .crcInit ∧ decode 0x2000ABCD#32 = .ok (.crcLoad 0xABCD#16) ∧
  decode 0x40ABC123#32 = .ok (.crcBuf 0xABC#12 0x123#12) ∧ decode 0x7000A0FF#32 = .ok (.pktWrb 10#12 0xFF#8) ∧
  decode 0x90123456#32 = .ok (.setSrc 0x123456#24) ∧ decode 0xE0000000#32 = .ok (.reservedE 0#28)

/-- Decoding an encoded command gives the command back, with every operand at every value (R63, R65, R68). -/
def Obligations.DecodeOfEncodeIsTheCommand : Prop :=
  ∀ i : Instr, decode (encode i) = .ok i

/-- Encoding a decoded command gives the word back: each word has at most one meaning, and no bit is dropped. -/
def Obligations.EncodeOfDecodeIsTheWord : Prop :=
  ∀ (w : Word) (i : Instr), decode w = .ok i → encode i = w

/-- R66, R67: a word is illegal exactly when its opcode is reserved or one of its must-be-zero bits is set, and an
illegal word raises ILLEGAL in every state; so does the all-zero word. -/
def Obligations.IllegalWordsAreExactlyTheReservedOnes : Prop :=
  (∀ w : Word, isIllegalWord w = true ↔ (reservedOpcode w ∨ ¬ zeroFieldsClear w)) ∧
  (∀ (w : Word) (s : State), (reservedOpcode w ∨ ¬ zeroFieldsClear w) → execWord w s = illegalAnswer s) ∧
  (∀ s : State, execWord 0x00000000#32 s = illegalAnswer s)

/-- R67's own terms: for the match and mask of every defined command in R65's table, a word with that opcode is
illegal exactly when (w & mask) differs from match. -/
def Obligations.MaskedMismatchIsIllegal : Prop :=
  ∀ r ∈ opcodeMap.take 13, ∀ w : Word, opcField w = opcField r.matchBits →
    (isIllegalWord w = true ↔ w &&& r.mask ≠ r.matchBits)

/-- R64: every operand is the unsigned number its bits give, in the places of R63. -/
def Obligations.OperandsAreUnsignedBitFields : Prop :=
  (∀ (w : Word) (v : Crc16), decode w = .ok (.crcLoad v) → v.toNat = w.toNat % 2 ^ 16) ∧
  (∀ (w : Word) (b : Byte), decode w = .ok (.crcByte b) → b.toNat = w.toNat % 2 ^ 8) ∧
  (∀ (w : Word) (off cnt : Field12), decode w = .ok (.crcBuf off cnt) →
    off.toNat = w.toNat / 2 ^ 12 % 2 ^ 12 ∧ cnt.toNat = w.toNat % 2 ^ 12) ∧
  (∀ (w : Word) (off : Field12), decode w = .ok (.pktRdb off) → off.toNat = w.toNat / 2 ^ 12 % 2 ^ 12) ∧
  (∀ (w : Word) (off : Field12) (b : Byte), decode w = .ok (.pktWrb off b) →
    off.toNat = w.toNat / 2 ^ 12 % 2 ^ 12 ∧ b.toNat = w.toNat % 2 ^ 8) ∧
  (∀ (w : Word) (v : Data24), decode w = .ok (.setSrc v) → v.toNat = w.toNat % 2 ^ 24) ∧
  (∀ (w : Word) (v : Data24), decode w = .ok (.setDst v) → v.toNat = w.toNat % 2 ^ 24) ∧
  (∀ (w : Word) (n : Byte), decode w = .ok (.setLen n) → n.toNat = w.toNat % 2 ^ 8)

/-- R66: every word of a reserved opcode completes with the response ILLEGAL. -/
def Obligations.ReservedOpcodesAnswerIllegal : Prop :=
  ∀ (s : State) (low : BitVec 28),
    exec (.reserved0 low) s = illegalAnswer s ∧ exec (.reservedE low) s = illegalAnswer s ∧
    exec (.reservedF low) s = illegalAnswer s ∧
    ∀ w : Word, reservedOpcode w → execWord w s = illegalAnswer s

/-! ## The commands of the CRC unit: encoding, effect with everything else unchanged, faults -/

/-- R83, CRC_INIT. -/
def Obligations.CrcInitLoadsTheStartValue : Prop :=
  decode 0x10000000#32 = .ok .crcInit ∧
  (∀ s : State, exec .crcInit s = .next (answered 0x00000000#32 { s with acc := s.params.crc16Init })) ∧
  (∀ (w : Word) (s : State), opcField w = 0x1#4 → w &&& 0x0FFFFFFF#32 ≠ 0#32 → execWord w s = illegalAnswer s)

/-- R84, CRC_LOAD. -/
def Obligations.CrcLoadLoadsTheImmediate : Prop :=
  (∀ imm16 : Crc16, decode (0x20000000#32 ||| imm16.setWidth 32) = .ok (.crcLoad imm16)) ∧
  (∀ (s : State) (imm16 : Crc16), exec (.crcLoad imm16) s = .next (answered 0x00000000#32 { s with acc := imm16 })) ∧
  (∀ (w : Word) (s : State), opcField w = 0x2#4 → w &&& 0x0FFF0000#32 ≠ 0#32 → execWord w s = illegalAnswer s)

/-- R85, CRC_BYTE. The clause that from ACC = 0 the byte 0 leaves 0, for every polynomial, is an inference that the spec
marks as its own: "From `ACC = 0x0000`, the byte `0x00` leaves `ACC = 0x0000`, for every polynomial [derived: from rule
R80]" (40_crc.md section 2). -/
def Obligations.CrcByteAbsorbsOneByte : Prop :=
  (∀ imm8 : Byte, decode (0x30000000#32 ||| imm8.setWidth 32) = .ok (.crcByte imm8)) ∧
  (∀ (s : State) (imm8 : Byte), exec (.crcByte imm8) s =
    .next (answered 0x00000000#32 { s with acc := crcStep s.params.crcPoly s.acc imm8 })) ∧
  (∀ poly : Crc16, crcStep poly 0x0000#16 0x00#8 = 0x0000#16) ∧
  (∀ (w : Word) (s : State), opcField w = 0x3#4 → w &&& 0x0FFFFF00#32 ≠ 0#32 → execWord w s = illegalAnswer s)

/-- R86, CRC_BUF: over a range that holds the bytes `d`, and RANGE where OFF + CNT > PKT_CAP as integers. -/
def Obligations.CrcBufAbsorbsTheRange : Prop :=
  (∀ off cnt : Field12, decode (0x40000000#32 ||| (off.setWidth 32 <<< 12) ||| cnt.setWidth 32) =
    .ok (.crcBuf off cnt)) ∧
  (∀ (s : State) (off cnt : Field12) (d : List Byte), off.toNat + cnt.toNat ≤ s.params.pktCap →
    d.length = cnt.toNat → HoldsBytes s off.toNat d →
    exec (.crcBuf off cnt) s = .next (answered 0x00000000#32 { s with acc := crcFold s.params.crcPoly s.acc d })) ∧
  (∀ (s : State) (off cnt : Field12), s.params.pktCap < off.toNat + cnt.toNat →
    exec (.crcBuf off cnt) s = rangeAnswer s) ∧
  (∀ (w : Word) (s : State), opcField w = 0x4#4 → w &&& 0x0F000000#32 ≠ 0#32 → execWord w s = illegalAnswer s)

/-- R87, CRC_READ. -/
def Obligations.CrcReadReturnsTheAccumulator : Prop :=
  decode 0x50000000#32 = .ok .crcRead ∧
  (∀ s : State, exec .crcRead s = .next (answered (s.acc.setWidth 32) s)) ∧
  (∀ (w : Word) (s : State), opcField w = 0x5#4 → w &&& 0x0FFFFFFF#32 ≠ 0#32 → execWord w s = illegalAnswer s)

/-! ## The commands of the field codec unit -/

/-- R100, PKT_RDB. -/
def Obligations.PktRdbReturnsTheByte : Prop :=
  (∀ off : Field12, decode (0x60000000#32 ||| (off.setWidth 32 <<< 12)) = .ok (.pktRdb off)) ∧
  (∀ (s : State) (off : Field12) (b : Byte), off.toNat < s.params.pktCap → memLookup s.pkt off.toNat = some b →
    exec (.pktRdb off) s = .next (answered (b.setWidth 32) s)) ∧
  (∀ (s : State) (off : Field12), s.params.pktCap ≤ off.toNat → exec (.pktRdb off) s = rangeAnswer s) ∧
  (∀ (w : Word) (s : State), opcField w = 0x6#4 → w &&& 0x0F000FFF#32 ≠ 0#32 → execWord w s = illegalAnswer s)

/-- R101, PKT_WRB: the byte at OFF becomes IMM8 and no other byte changes. -/
def Obligations.PktWrbStoresTheByte : Prop :=
  (∀ (off : Field12) (imm8 : Byte), decode (0x70000000#32 ||| (off.setWidth 32 <<< 12) ||| imm8.setWidth 32) =
    .ok (.pktWrb off imm8)) ∧
  (∀ (s : State) (off : Field12) (imm8 : Byte), off.toNat < s.params.pktCap →
    ∃ m : Memory, exec (.pktWrb off imm8) s = .next (answered 0x00000000#32 { s with pkt := m }) ∧
      ∀ o, memLookup m o = if o = off.toNat then some imm8 else memLookup s.pkt o) ∧
  (∀ (s : State) (off : Field12) (imm8 : Byte), s.params.pktCap ≤ off.toNat →
    exec (.pktWrb off imm8) s = rangeAnswer s) ∧
  (∀ (w : Word) (s : State), opcField w = 0x7#4 → w &&& 0x0F000F00#32 ≠ 0#32 → execWord w s = illegalAnswer s)

/-- R102, GET_SRC: big-endian, offset 4 gives bits 23:16. -/
def Obligations.GetSrcReadsBigEndian : Prop :=
  decode 0x80000000#32 = .ok .getSrc ∧
  (∀ (s : State) (b4 b5 b6 : Byte), memLookup s.pkt 4 = some b4 → memLookup s.pkt 5 = some b5 →
    memLookup s.pkt 6 = some b6 → exec .getSrc s =
      .next (answered (BitVec.ofNat 32 (b4.toNat * 2 ^ 16 + b5.toNat * 2 ^ 8 + b6.toNat)) s)) ∧
  (∀ (w : Word) (s : State), opcField w = 0x8#4 → w &&& 0x0FFFFFFF#32 ≠ 0#32 → execWord w s = illegalAnswer s)

/-- R103, SET_SRC: offsets 4, 5 and 6 take the bytes of IMM24, most significant first; no other byte changes. -/
def Obligations.SetSrcWritesBigEndian : Prop :=
  (∀ v : Data24, decode (0x90000000#32 ||| v.setWidth 32) = .ok (.setSrc v)) ∧
  (∀ (s : State) (v : Data24), ∃ m : Memory,
    exec (.setSrc v) s = .next (answered 0x00000000#32 { s with pkt := m }) ∧
    ∀ o, memLookup m o =
      if o = 4 then some (v.extractLsb' 16 8) else if o = 5 then some (v.extractLsb' 8 8)
      else if o = 6 then some (v.extractLsb' 0 8) else memLookup s.pkt o) ∧
  (∀ (w : Word) (s : State), opcField w = 0x9#4 → w &&& 0x0F000000#32 ≠ 0#32 → execWord w s = illegalAnswer s)

/-- R104, GET_DST: big-endian, offset 7 gives bits 23:16. -/
def Obligations.GetDstReadsBigEndian : Prop :=
  decode 0xA0000000#32 = .ok .getDst ∧
  (∀ (s : State) (b7 b8 b9 : Byte), memLookup s.pkt 7 = some b7 → memLookup s.pkt 8 = some b8 →
    memLookup s.pkt 9 = some b9 → exec .getDst s =
      .next (answered (BitVec.ofNat 32 (b7.toNat * 2 ^ 16 + b8.toNat * 2 ^ 8 + b9.toNat)) s)) ∧
  (∀ (w : Word) (s : State), opcField w = 0xA#4 → w &&& 0x0FFFFFFF#32 ≠ 0#32 → execWord w s = illegalAnswer s)

/-- R105, SET_DST: offsets 7, 8 and 9 take the bytes of IMM24, most significant first; no other byte changes. -/
def Obligations.SetDstWritesBigEndian : Prop :=
  (∀ v : Data24, decode (0xB0000000#32 ||| v.setWidth 32) = .ok (.setDst v)) ∧
  (∀ (s : State) (v : Data24), ∃ m : Memory,
    exec (.setDst v) s = .next (answered 0x00000000#32 { s with pkt := m }) ∧
    ∀ o, memLookup m o =
      if o = 7 then some (v.extractLsb' 16 8) else if o = 8 then some (v.extractLsb' 8 8)
      else if o = 9 then some (v.extractLsb' 0 8) else memLookup s.pkt o) ∧
  (∀ (w : Word) (s : State), opcField w = 0xB#4 → w &&& 0x0F000000#32 ≠ 0#32 → execWord w s = illegalAnswer s)

/-- R106, GET_PLEN: the integer LEN - 9 as 24-bit two's complement; negative where LEN < 9. -/
def Obligations.GetPlenReturnsLenMinusNine : Prop :=
  decode 0xC0000000#32 = .ok .getPlen ∧
  (∀ (s : State) (len : Byte), memLookup s.pkt 0 = some len →
    ∃ d : Data24, exec .getPlen s = .next (answered (d.setWidth 32) s) ∧ d.toInt = (len.toNat : Int) - 9) ∧
  (∀ (w : Word) (s : State), opcField w = 0xC#4 → w &&& 0x0FFFFFFF#32 ≠ 0#32 → execWord w s = illegalAnswer s)

/-- R107, SET_LEN: LEN becomes (n + 9) mod 256; no other byte changes. -/
def Obligations.SetLenStoresNPlusNine : Prop :=
  (∀ n : Byte, decode (0xD0000000#32 ||| n.setWidth 32) = .ok (.setLen n)) ∧
  (∀ (s : State) (n : Byte), ∃ (m : Memory) (b : Byte),
    exec (.setLen n) s = .next (answered 0x00000000#32 { s with pkt := m }) ∧ b.toNat = (n.toNat + 9) % 256 ∧
    ∀ o, memLookup m o = if o = 0 then some b else memLookup s.pkt o) ∧
  (∀ (w : Word) (s : State), opcField w = 0xD#4 → w &&& 0x0FFFFF00#32 ≠ 0#32 → execWord w s = illegalAnswer s)

/-! ## Reads of unwritten bytes, frames, ordering -/

/-- 93_implementation_defined.md I1: a read that meets a byte nothing has written stops with the model's fault, which
names the first such offset in the command's reading order. The fault is the treatment I1 gives the model (log
entry 2), no response of the block. -/
def Obligations.UnwrittenReadsStop : Prop :=
  (∀ (s : State) (off : Field12), off.toNat < s.params.pktCap → memLookup s.pkt off.toNat = none →
    exec (.pktRdb off) s = .fault (.unwrittenByte off.toNat)) ∧
  (∀ s : State, memLookup s.pkt 0 = none → exec .getPlen s = .fault (.unwrittenByte 0)) ∧
  (∀ (s : State) (k : Nat), k < 3 → (∀ j < k, memLookup s.pkt (4 + j) ≠ none) → memLookup s.pkt (4 + k) = none →
    exec .getSrc s = .fault (.unwrittenByte (4 + k))) ∧
  (∀ (s : State) (k : Nat), k < 3 → (∀ j < k, memLookup s.pkt (7 + j) ≠ none) → memLookup s.pkt (7 + k) = none →
    exec .getDst s = .fault (.unwrittenByte (7 + k))) ∧
  (∀ (s : State) (off cnt : Field12) (k : Nat), off.toNat + cnt.toNat ≤ s.params.pktCap → k < cnt.toNat →
    (∀ j < k, memLookup s.pkt (off.toNat + j) ≠ none) → memLookup s.pkt (off.toNat + k) = none →
    exec (.crcBuf off cnt) s = .fault (.unwrittenByte (off.toNat + k)))

/-- R159: no word is refused, and a word that does not get its response reads a byte nothing has written: the only
stop there is. That stop is the treatment I1 gives the model (log entry 2). -/
def Obligations.OnlyUnwrittenReadsKeepAResponseBack : Prop :=
  ∀ (w : Word) (s : State),
    (∃ (t : State) (r : Word), execWord w s = .next t ∧ t.responses = s.responses ++ [r] ∧ ResponseForm r) ∨
    (∃ off : Nat, execWord w s = .fault (.unwrittenByte off) ∧ memLookup s.pkt off = none)

/-- R46: a command that writes nothing by R41's table leaves every byte of PKT as it was, and so do the commands that
only read: they change nothing but the response list. -/
def Obligations.ReadsHaveNoSideEffects : Prop :=
  (∀ (i : Instr) (s t : State), i ∈ [.crcRead, .getSrc, .getDst, .getPlen] → exec i s = .next t →
    ∃ r, t = answered r s) ∧
  (∀ (off : Field12) (s t : State), exec (.pktRdb off) s = .next t → ∃ r, t = answered r s) ∧
  (∀ (off cnt : Field12) (s t : State), exec (.crcBuf off cnt) s = .next t → t.pkt = s.pkt) ∧
  (∀ (off : Field12) (s t u : State), exec (.pktRdb off) s = .next t → exec (.pktRdb off) t = .next u →
    ∃ r, t = answered r s ∧ u = answered r t) ∧
  (∀ (i : Instr) (s t : State) (o : Nat), exec i s = .next t → o ∉ writtenOffsets s.params.pktCap i →
    memLookup t.pkt o = memLookup s.pkt o)

/-- The frame of the commands that store nothing: the CRC unit's and the reading ones change neither the buffer nor the
parameters, moves and draws, and only CRC_INIT, CRC_LOAD, CRC_BYTE and CRC_BUF change ACC (R21, R41). -/
def Obligations.NonStoringCommandsFrame : Prop :=
  ∀ (i : Instr) (s t : State), writtenOffsets s.params.pktCap i = [] → exec i s = .next t →
    (∃ r a, t = answered r { s with acc := a }) ∧
    (i ∈ [.crcRead, .getSrc, .getDst, .getPlen] → t.acc = s.acc) ∧
    (∀ off, i = .pktRdb off → t.acc = s.acc) ∧ (∀ off b, i = .pktWrb off b → t.acc = s.acc) ∧
    (i.WellFormed = false → t.acc = s.acc)

/-- R47: SET_SRC writes only offsets 4 to 6, SET_DST only 7 to 9, SET_LEN only 0, PKT_WRB only its own; ACC, the
parameters, the moves and the draws stay. -/
def Obligations.StoresChangeOnlyTheirOwnBytes : Prop :=
  (∀ (v : Data24) (s t : State), exec (.setSrc v) s = .next t →
    (∃ r m, t = answered r { s with pkt := m }) ∧
    ∀ o, o ≠ 4 → o ≠ 5 → o ≠ 6 → memLookup t.pkt o = memLookup s.pkt o) ∧
  (∀ (v : Data24) (s t : State), exec (.setDst v) s = .next t →
    (∃ r m, t = answered r { s with pkt := m }) ∧
    ∀ o, o ≠ 7 → o ≠ 8 → o ≠ 9 → memLookup t.pkt o = memLookup s.pkt o) ∧
  (∀ (n : Byte) (s t : State), exec (.setLen n) s = .next t →
    (∃ r m, t = answered r { s with pkt := m }) ∧ ∀ o, o ≠ 0 → memLookup t.pkt o = memLookup s.pkt o) ∧
  (∀ (off : Field12) (b : Byte) (s t : State), exec (.pktWrb off b) s = .next t →
    (∃ r m, t = answered r { s with pkt := m }) ∧
    ∀ o, o ≠ off.toNat → memLookup t.pkt o = memLookup s.pkt o)

/-- R49: every offset in range is writable and then readable by the commands that name it. -/
def Obligations.EveryOffsetInRangeIsReadableAndWritable : Prop :=
  ∀ (s : State) (off : Field12) (b : Byte), off.toNat < s.params.pktCap →
    ∃ t, exec (.pktWrb off b) s = .next t ∧ exec (.pktRdb off) t = .next (answered (b.setWidth 32) t) ∧
      ∃ u, exec (.crcBuf off 1#12) t = .next u ∧ u.acc = crcStep s.params.crcPoly s.acc b

/-! ## Responses and faults -/

/-- R130: a word that is answered gets ILLEGAL exactly when it is illegal, and RANGE exactly when it is legal and its
buffer operand is out of range. -/
def Obligations.FaultsHaveExactlyTheirCauses : Prop :=
  ∀ (w : Word) (s t : State), execWord w s = .next t →
    (t.responses = s.responses ++ [0x10000000#32] ↔ isIllegalWord w = true) ∧
    (t.responses = s.responses ++ [0x20000000#32] ↔ ∃ i, decode w = .ok i ∧ outOfRange s i)

/-- R131: a command whose response reports a fault changes nothing, and its response is 0x10000000 or 0x20000000. -/
def Obligations.FaultingCommandsChangeNothing : Prop :=
  ∀ (w : Word) (s t : State) (r : Word), execWord w s = .next t → t.responses = s.responses ++ [r] →
    responseStatus r ≠ 0x0#4 → (r = 0x10000000#32 ∨ r = 0x20000000#32) ∧ t = answered r s

/-- R132: a word that is illegal and whose operand fields are out of range reports ILLEGAL. -/
def Obligations.IllegalGoesBeforeRange : Prop :=
  ∀ (w : Word) (s : State), opcField w = 0x4#4 ∨ opcField w = 0x6#4 ∨ opcField w = 0x7#4 →
    ¬ zeroFieldsClear w → s.params.pktCap < (offField w).toNat → execWord w s = illegalAnswer s

/-- R133, R24: no command reads an earlier response, so what a word does after a fault is what it does without it,
but for the fault's own response in the list. -/
def Obligations.FaultsAreNotSticky : Prop :=
  ∀ (w : Word) (s : State) (fault : Word),
    (∀ t, execWord w s = .next t →
      ∃ r, t.responses = s.responses ++ [r] ∧
        execWord w (answered fault s) = .next { t with responses := s.responses ++ [fault] ++ [r] }) ∧
    (∀ f, execWord w s = .fault f → execWord w (answered fault s) = .fault f)

/-! ## Whole-machine rules -/

/-- Every step keeps the invariant, whatever the host does, a reset during a command included: parameters within R6,
the buffer canonical and within PKT_CAP, every response of R71's form. -/
def Obligations.StepKeepsTheInvariant : Prop :=
  ∀ s t : State, Inv s → step s = .next t → Inv t

/-- R25: no step changes a parameter of the instance; nor does any command change the host's moves to come (R23). -/
def Obligations.StepsChangeNoParameterAndNoMove : Prop :=
  (∀ s t : State, step s = .next t → t.params = s.params ∧ t.hostMoves = s.hostMoves.tail) ∧
  (∀ (i : Instr) (s t : State), exec i s = .next t → t.params = s.params ∧ t.hostMoves = s.hostMoves)

/-- R153: a reset during a command leaves ACC = CRC16_INIT, every byte the command does not write as it was, and the
response either not delivered or the command's own. What the written bytes hold and which of the two happens are free
values (log entry 5), and the statement holds for all of them. -/
def Obligations.ResetDuringACommand : Prop :=
  ∀ (s t : State) (w : Word) (ms : List HostMove), s.hostMoves = .resetDuring w :: ms → step s = .next t →
    t.acc = s.params.crc16Init ∧ t.params = s.params ∧ t.hostMoves = ms ∧
    (∀ o, o ∉ wordWrittenOffsets s.params.pktCap w → memLookup t.pkt o = memLookup s.pkt o) ∧
    (t.responses = s.responses ∨
      ∃ u, execWord w { s with hostMoves := ms } = .next u ∧ t.responses = u.responses)

/-- A run of words issued in order (R160) is that many steps of the machine, and it ends with one response for each
word, in order, after those there were. -/
def Obligations.RunIsStepsWithOneResponseEach : Prop :=
  (∀ (ws : List Word) (s t : State), s.hostMoves = ws.map .command → runWords ws { s with hostMoves := [] } = .next t →
    Host.Core.run Sys2Proof.core ws.length s = .next t) ∧
  (∀ (ws : List Word) (s t : State), runWords ws s = .next t →
    ∃ rs : List Word, rs.length = ws.length ∧ t.responses = s.responses ++ rs)

/-- The observation of R160 says all there is to say of the block: two states of one instance that meet the invariant
and are observed alike hold the same ACC, the same buffer and the same responses. -/
def Obligations.ObservationDeterminesTheBlock : Prop :=
  ∀ s t : State, Inv s → Inv t → s.params = t.params → observe s = observe t →
    s.acc = t.acc ∧ s.pkt = t.pkt ∧ s.responses = t.responses

/-- A run that ends with no fault among its responses issued only legal words in range: the premise "no fault" of a
claim excludes the reserved words (93_implementation_defined.md I2). -/
def Obligations.FaultFreeRunsIssueLegalWords : Prop :=
  ∀ (ws : List Word) (s t : State), runWords ws s = .next t → FaultFree t →
    ∀ w ∈ ws, isIllegalWord w = false ∧ ∀ i, decode w = .ok i → ¬ outOfRange s i

/-! ## The CRC arithmetic -/

/-- R80: crc_step is eight passes of the shift-and-add loop from ACC ^ (b << 8), and in polynomials over GF(2) the
remainder of acc(x)·x^8 + b(x)·x^16 modulo G(x) = x^16 + CRC_POLY(x). -/
def Obligations.CrcStepIsThePolynomialRemainder : Prop :=
  ∀ (poly acc : Crc16) (b : Byte),
    (crcStep poly acc b =
      (fun a : Crc16 => if a.msb then (a <<< 1) ^^^ poly else a <<< 1)^[8] (acc ^^^ (b.setWidth 16 <<< 8))) ∧
    ∀ g pa pb pr : Polynomial (ZMod 2), IsPolyOf g poly → IsPolyOf pa acc → IsPolyOf pb b →
      IsPolyOf pr (crcStep poly acc b) →
      pr = (pa * Polynomial.X ^ 8 + pb * Polynomial.X ^ 16) %ₘ (Polynomial.X ^ 16 + g)

/-- The polynomial form that R81 derives ("[derived: from rule R80 by induction on n]"): crc_fold is the remainder of
init(x)·x^(8n) + D(x)·x^16, with d[0] in the highest place of D. -/
def Obligations.CrcFoldIsThePolynomialRemainder : Prop :=
  ∀ (poly init : Crc16) (d : List Byte) (g pinit pr : Polynomial (ZMod 2)) (pd : Nat → Polynomial (ZMod 2)),
    IsPolyOf g poly → IsPolyOf pinit init → (∀ k (h : k < d.length), IsPolyOf (pd k) d[k]) →
    IsPolyOf pr (crcFold poly init d) →
    pr = (pinit * Polynomial.X ^ (8 * d.length) +
      (∑ k ∈ Finset.range d.length, pd k * Polynomial.X ^ (8 * (d.length - 1 - k))) * Polynomial.X ^ 16) %ₘ
      (Polynomial.X ^ 16 + g)

/-- R82's derived law: the table-driven update gives what the bit-wise one gives, for every polynomial. -/
def Obligations.TableDrivenUpdateAgrees : Prop :=
  ∀ (poly acc : Crc16) (b : Byte), crcStep poly acc b = crcStepByTable poly acc b

/-- R88's derived contract: CRC_LOAD, then CRC_BUF over bytes held in PKT or one CRC_BYTE for each, then CRC_READ
returns crc16(d, n, init), with all responses OK, ACC at that value and PKT unchanged. -/
def Obligations.CommandSequencesComputeCrc16 : Prop :=
  (∀ (s : State) (init : Crc16) (off cnt : Field12) (d : List Byte), off.toNat + cnt.toNat ≤ s.params.pktCap →
    d.length = cnt.toNat → HoldsBytes s off.toNat d →
    execAll [.crcLoad init, .crcBuf off cnt, .crcRead] s = .next
      { s with
        acc := crcFold s.params.crcPoly init d
        responses := s.responses ++ [0#32, 0#32, (crcFold s.params.crcPoly init d).setWidth 32] }) ∧
  (∀ (s : State) (init : Crc16) (d : List Byte),
    execAll (.crcLoad init :: d.map .crcByte ++ [.crcRead]) s = .next
      { s with
        acc := crcFold s.params.crcPoly init d
        responses := s.responses ++ List.replicate (d.length + 1) 0#32 ++
          [(crcFold s.params.crcPoly init d).setWidth 32] })

/-- R89: zero-length input returns the initial accumulator, at every offset up to and including PKT_CAP, whatever the
buffer holds. -/
def Obligations.ZeroLengthInputReturnsInit : Prop :=
  (∀ poly init : Crc16, crcFold poly init [] = init) ∧
  ∀ (s : State) (init : Crc16) (off : Field12), off.toNat ≤ s.params.pktCap →
    execAll [.crcLoad init, .crcBuf off 0#12, .crcRead] s = .next
      { s with acc := init, responses := s.responses ++ [0#32, 0#32, init.setWidth 32] }

/-- R90: CRC_BUF reads only ACC and its own range, so two states of one instance that agree there get the same ACC; it
leaves PKT as it was; and no CRC command that is legal, and in range over written bytes, faults. -/
def Obligations.CrcBufDependsOnItsRangeOnly : Prop :=
  (∀ (s s' t : State) (off cnt : Field12), s'.params = s.params → s'.acc = s.acc →
    (∀ k < cnt.toNat, memLookup s'.pkt (off.toNat + k) = memLookup s.pkt (off.toNat + k)) →
    exec (.crcBuf off cnt) s = .next t →
    t.pkt = s.pkt ∧ ∃ t', exec (.crcBuf off cnt) s' = .next t' ∧ t'.acc = t.acc ∧ t'.pkt = s'.pkt) ∧
  (∀ (s : State) (off cnt : Field12), off.toNat + cnt.toNat ≤ s.params.pktCap →
    (∀ k < cnt.toNat, memLookup s.pkt (off.toNat + k) ≠ none) →
    ∃ a, exec (.crcBuf off cnt) s = .next (answered 0x00000000#32 { s with acc := a })) ∧
  (∀ (s : State) (v : Crc16) (b : Byte), ∀ i ∈ [.crcInit, .crcLoad v, .crcByte b, .crcRead],
    ∃ (a : Crc16) (d : Data24), exec i s = .next (answered (d.setWidth 32) { s with acc := a }))

/-- The derived law R91: two sequences of equal length that differ in exactly one byte never give the same result. -/
def Obligations.OneByteChangeAlwaysDetected : Prop :=
  ∀ (poly init : Crc16) (d e : List Byte) (b c : Byte), poly.getLsbD 0 = true → b ≠ c →
    crcFold poly init (d ++ b :: e) ≠ crcFold poly init (d ++ c :: e)

/-- The derived law R92: crc_step is a bijection of the accumulator for each byte, and crc_fold for each sequence. -/
def Obligations.ResultDependsBijectivelyOnInit : Prop :=
  ∀ poly : Crc16, poly.getLsbD 0 = true →
    (∀ b : Byte, Function.Bijective fun acc => crcStep poly acc b) ∧
    (∀ d : List Byte, Function.Bijective fun init => crcFold poly init d)

/-- The derived law R93: a checksum continues across a split, in sequences and in commands. -/
def Obligations.ChecksumContinuesAcrossASplit : Prop :=
  (∀ (poly init : Crc16) (d e : List Byte), crcFold poly init (d ++ e) = crcFold poly (crcFold poly init d) e) ∧
  (∀ (s t : State) (off cnt off2 cnt2 cnt3 : Field12), off2.toNat = off.toNat + cnt.toNat →
    cnt3.toNat = cnt.toNat + cnt2.toNat → execAll [.crcBuf off cnt, .crcBuf off2 cnt2] s = .next t →
    (∀ k < cnt3.toNat, memLookup s.pkt (off.toNat + k) ≠ none) → off.toNat + cnt3.toNat ≤ s.params.pktCap →
    ∃ u, exec (.crcBuf off cnt3) s = .next u ∧ u.acc = t.acc)

/-- The derived law R94: the CRC is affine over GF(2), for every polynomial. -/
def Obligations.CrcIsAffine : Prop :=
  ∀ (poly init : Crc16) (d e : List Byte), d.length = e.length →
    crcFold poly init d = crcFold poly 0#16 d ^^^ crcFold poly init (List.replicate d.length 0#8) ∧
    crcFold poly 0#16 (List.zipWith (· ^^^ ·) d e) = crcFold poly 0#16 d ^^^ crcFold poly 0#16 e ∧
    crcFold poly 0#16 (List.replicate d.length 0#8) = 0#16

/-- The derived law R95: distinct inputs of one byte, or of two bytes, give distinct results. -/
def Obligations.ShortInputsNeverCollide : Prop :=
  ∀ poly init : Crc16, poly.getLsbD 0 = true →
    (∀ b c : Byte, crcFold poly init [b] = crcFold poly init [c] → b = c) ∧
    (∀ b b' c c' : Byte, crcFold poly init [b, b'] = crcFold poly init [c, c'] → b = c ∧ b' = c')

/-- R96: from three bytes on, distinct inputs can collide, for every polynomial and start; under 0x8005 the inputs
00 80 05 and 01 00 00 collide from every start, with 0x8C3D from 0xD77F. -/
def Obligations.LongerInputsCollide : Prop :=
  (∀ (poly init : Crc16) (n : Nat), 3 ≤ n →
    ∃ d e : List Byte, d.length = n ∧ e.length = n ∧ d ≠ e ∧ crcFold poly init d = crcFold poly init e) ∧
  (∀ init : Crc16, crcFold 0x8005#16 init [0x00#8, 0x80#8, 0x05#8] = crcFold 0x8005#16 init [0x01#8, 0x00#8, 0x00#8]) ∧
  crcFold 0x8005#16 0xD77F#16 [0x00#8, 0x80#8, 0x05#8] = 0x8C3D#16

/-! ## The laws of the codec -/

/-- The derived law R108: an address field reads back what was last written, across any commands that write none of its
bytes. -/
def Obligations.AddressFieldsReadBack : Prop :=
  (∀ (s t u : State) (v : Data24) (is : List Instr), exec (.setSrc v) s = .next t → execAll is t = .next u →
    (∀ i ∈ is, ∀ o ∈ writtenOffsets s.params.pktCap i, o ≠ 4 ∧ o ≠ 5 ∧ o ≠ 6) →
    exec .getSrc u = .next (answered (v.setWidth 32) u)) ∧
  (∀ (s t u : State) (v : Data24) (is : List Instr), exec (.setDst v) s = .next t → execAll is t = .next u →
    (∀ i ∈ is, ∀ o ∈ writtenOffsets s.params.pktCap i, o ≠ 7 ∧ o ≠ 8 ∧ o ≠ 9) →
    exec .getDst u = .next (answered (v.setWidth 32) u))

/-- The derived law R109: after SET_LEN n a GET_PLEN returns n for n up to 246 and n - 256 above, across any commands
that do not write offset 0. -/
def Obligations.LengthRoundTrip : Prop :=
  ∀ (s t u : State) (n : Byte) (is : List Instr), exec (.setLen n) s = .next t → execAll is t = .next u →
    (∀ i ∈ is, ∀ o ∈ writtenOffsets s.params.pktCap i, o ≠ 0) →
    ∃ d : Data24, exec .getPlen u = .next (answered (d.setWidth 32) u) ∧
      d.toInt = if n.toNat ≤ 246 then (n.toNat : Int) else (n.toNat : Int) - 256

/-- The derived law R110: SRC and DST do not interfere, in either order of the two writes. -/
def Obligations.SrcAndDstDoNotInterfere : Prop :=
  ∀ (s : State) (a b : Data24) (is : List Instr),
    is = [.setSrc a, .setDst b] ∨ is = [.setDst b, .setSrc a] →
    ∃ t, execAll is s = .next t ∧ exec .getSrc t = .next (answered (a.setWidth 32) t) ∧
      exec .getDst t = .next (answered (b.setWidth 32) t) ∧ t.acc = s.acc ∧
      ∀ o, o < 4 ∨ 9 < o → memLookup t.pkt o = memLookup s.pkt o

/-- The derived law R111: raw byte access and field access see the same bytes. -/
def Obligations.RawAndFieldAccessAgree : Prop :=
  (∀ (s t : State) (off : Field12) (b : Byte) (v : Data24) (k : Nat), k < 3 → off.toNat = 4 + k →
    exec .getSrc s = .next (answered (v.setWidth 32) s) → off.toNat < s.params.pktCap →
    exec (.pktWrb off b) s = .next t →
    ∃ v' : Data24, exec .getSrc t = .next (answered (v'.setWidth 32) t) ∧ v'.extractLsb' (16 - 8 * k) 8 = b ∧
      ∀ i, i < 16 - 8 * k ∨ 24 - 8 * k ≤ i → v'.getLsbD i = v.getLsbD i) ∧
  (∀ (s t : State) (off : Field12) (b : Byte) (v : Data24) (k : Nat), k < 3 → off.toNat = 7 + k →
    exec .getDst s = .next (answered (v.setWidth 32) s) → off.toNat < s.params.pktCap →
    exec (.pktWrb off b) s = .next t →
    ∃ v' : Data24, exec .getDst t = .next (answered (v'.setWidth 32) t) ∧ v'.extractLsb' (16 - 8 * k) 8 = b ∧
      ∀ i, i < 16 - 8 * k ∨ 24 - 8 * k ≤ i → v'.getLsbD i = v.getLsbD i) ∧
  (∀ (s t : State) (off : Field12) (v : Data24) (k : Nat), k < 3 → off.toNat = 4 + k → off.toNat < s.params.pktCap →
    exec (.setSrc v) s = .next t →
    exec (.pktRdb off) t = .next (answered ((v.extractLsb' (16 - 8 * k) 8).setWidth 32) t)) ∧
  (∀ (s t : State) (n : Byte), 0 < s.params.pktCap → exec (.setLen n) s = .next t →
    exec (.pktRdb 0#12) t = .next (answered (BitVec.ofNat 32 ((n.toNat + 9) % 256)) t))

/-! ## The assembler -/

/-- R72: the assembler gives the word that decodes to the command with its operands unchanged where every operand fits
its field, and refuses, rather than truncates, where one does not. -/
def Obligations.AssemblerRefusesWhatDoesNotFit : Prop :=
  (∀ c : AsmCommand, asmFits c = true →
    ∃ w i, assembleCommand c = .ok w ∧ decode w = .ok i ∧ disassemble i = some c) ∧
  (∀ c : AsmCommand, asmFits c = false → assembleCommand c = .error .operandTooLarge) ∧
  (∀ v, (asmFits (.crcLoad v) = true ↔ v ≤ 0xFFFF) ∧ (asmFits (.crcByte v) = true ↔ v ≤ 0xFF) ∧
    (asmFits (.pktRdb v) = true ↔ v ≤ 4095) ∧ (asmFits (.setSrc v) = true ↔ v ≤ 0xFFFFFF) ∧
    (asmFits (.setDst v) = true ↔ v ≤ 0xFFFFFF) ∧ (asmFits (.setLen v) = true ↔ v ≤ 0xFF)) ∧
  (∀ v u, (asmFits (.crcBuf v u) = true ↔ v ≤ 4095 ∧ u ≤ 4095) ∧ (asmFits (.pktWrb v u) = true ↔ v ≤ 4095 ∧ u ≤ 0xFF))

/-- R73: the expansions of the pseudo-instructions are what the assembler makes of them. -/
def Obligations.PseudoInstructionsExpand : Prop :=
  (∀ p : Pseudo, assembleLine (.pseudo p) = assembleCommands (expandPseudo p)) ∧
  (∀ init off cnt, expandPseudo (.crc16 init off cnt) = [.crcLoad init, .crcBuf off cnt, .crcRead]) ∧
  (∀ off cnt, expandPseudo (.crc16Fresh off cnt) = [.crcInit, .crcBuf off cnt, .crcRead]) ∧
  (∀ v, expandPseudo (.setMsgid v) = [.pktWrb 1 v] ∧ expandPseudo (.setCtl v) = [.pktWrb 2 v] ∧
    expandPseudo (.setType v) = [.pktWrb 3 v]) ∧
  expandPseudo .getMsgid = [.pktRdb 1] ∧ expandPseudo .getCtl = [.pktRdb 2] ∧ expandPseudo .getType = [.pktRdb 3] ∧
  expandPseudo .getLen = [.pktRdb 0] ∧ (∀ k v, expandPseudo (.setPayload k v) = [.pktWrb (10 + k) v])
end

