-- ==== Sys2Proof/Laws/Decode.lean ====
section
/-! SUPPORT. Decoding: the opcode picks the row, and the row's own match decides (spec/30_encoding.md R68). -/

namespace Sys2Proof

/-- A concatenation is the number with the first part in the higher places. -/
theorem toNat_append_eq_add {m n : Nat} (x : BitVec m) (y : BitVec n) :
    (x ++ y).toNat = x.toNat * 2 ^ n + y.toNat := by
  rw [BitVec.toNat_append, ← Nat.shiftLeft_add_eq_or_of_lt y.isLt, Nat.shiftLeft_eq]

/-- A field of a word is the number that its bits give (R9). -/
theorem toNat_extractLsb'_eq {m : Nat} (w : BitVec m) (start len : Nat) :
    (w.extractLsb' start len).toNat = w.toNat / 2 ^ start % 2 ^ len := by
  rw [BitVec.extractLsb'_toNat, Nat.shiftRight_eq_div_pow]

/-- The number of a command word (R61 to R63). -/
theorem toNat_commandWord (opc : BitVec 4) (low : Data24) :
    (commandWord opc low).toNat = opc.toNat * 2 ^ 28 + low.toNat := by
  have h := toNat_append_eq_add (opc ++ 0#4) low
  have h' := toNat_append_eq_add opc 0#4
  rw [commandWord, h, h']
  simp only [BitVec.toNat_ofNat]
  omega

/-- The number of a reserved word (R66). -/
theorem toNat_reservedWord (opc : BitVec 4) (low : BitVec 28) :
    (reservedWord opc low).toNat = opc.toNat * 2 ^ 28 + low.toNat := toNat_append_eq_add opc low

/-- The opcode field of a command word. -/
@[simp] theorem opcField_commandWord (opc : BitVec 4) (low : Data24) : opcField (commandWord opc low) = opc := by
  apply BitVec.eq_of_toNat_eq
  have := low.isLt
  have := opc.isLt
  rw [opcField, toNat_extractLsb'_eq, toNat_commandWord]
  omega

/-- Bits 27:24 of a command word are zero (R62). -/
@[simp] theorem zeroField_commandWord (opc : BitVec 4) (low : Data24) :
    (commandWord opc low).extractLsb' 24 4 = 0#4 := by
  apply BitVec.eq_of_toNat_eq
  have := low.isLt
  rw [toNat_extractLsb'_eq, toNat_commandWord, BitVec.toNat_ofNat]
  omega

/-- The opcode field of a reserved word. -/
@[simp] theorem opcField_reservedWord (opc : BitVec 4) (low : BitVec 28) :
    opcField (reservedWord opc low) = opc := by
  apply BitVec.eq_of_toNat_eq
  have := low.isLt
  have := opc.isLt
  rw [opcField, toNat_extractLsb'_eq, toNat_reservedWord]
  omega

/-- Every mask of the opcode map covers bits 31:28 (R65), so a row selects only words of its own opcode. -/
theorem opcField_of_rowSelects {w : Word} {r : OpcodeRow} (hr : r ∈ opcodeMap) (h : rowSelects w r = true) :
    opcField w = opcField r.matchBits := by
  have hm : opcField r.mask = 0xF#4 := by
    revert r
    simp [opcodeMap, opcField]
  have hw : w &&& r.mask = r.matchBits := by simpa [rowSelects] using h
  have : opcField w &&& opcField r.mask = opcField r.matchBits := by
    rw [← hw]
    exact (BitVec.extractLsb'_and ..).symm
  rw [← this, hm]
  exact (BitVec.and_allOnes (x := opcField w)).symm

/-- Where the elements that `p` selects share one key and keys are distinct, a search finds the element of that key or
nothing. -/
theorem find?_of_unique_key {α κ : Type} {key : α → κ} {p : α → Bool} {r : α} :
    ∀ {l : List α}, (l.map key).Nodup → r ∈ l → (∀ q ∈ l, p q = true → key q = key r) →
      l.find? p = if p r then some r else none
  | [], _, hr, _ => by simp at hr
  | q :: l, hn, hr, hk => by
    obtain ⟨hq, hn⟩ := List.nodup_cons.1 hn
    rcases List.mem_cons.1 hr with rfl | hr
    · cases hp : p r with
      | true => simp [hp]
      | false =>
        simp only [List.find?_cons, hp, Bool.false_eq_true, if_false, List.find?_eq_none]
        intro x hx hpx
        exact hq (hk x (by simp [hx]) hpx ▸ List.mem_map_of_mem hx)
    · have hpq : p q = false := by
        by_contra hp
        exact hq (hk q (by simp) (by simpa using hp) ▸ List.mem_map_of_mem hr)
      rw [List.find?_cons, hpq]
      exact find?_of_unique_key hn hr fun x hx => hk x (by simp [hx])

/-- The opcodes of the map are distinct (R65). -/
theorem opcodeMap_nodup : (opcodeMap.map fun r => opcField r.matchBits).Nodup := by decide

/-- R68: the opcode picks a row of the map, and the word is that row's command exactly when its must-be-zero bits are
zero. -/
theorem decode_of_opcField {w : Word} {r : OpcodeRow} (hr : r ∈ opcodeMap)
    (h : opcField w = opcField r.matchBits) :
    decode w = if rowSelects w r then .ok (r.read w) else .error .mustBeZeroBitSet := by
  rw [decode, find?_of_unique_key opcodeMap_nodup hr fun q hq hs => (opcField_of_rowSelects hq hs).symm.trans h]
  cases rowSelects w r <;> rfl

/-- A word that a row selects decodes to the row's command. -/
theorem decode_of_rowSelects {w : Word} {r : OpcodeRow} (hr : r ∈ opcodeMap) (h : rowSelects w r = true) :
    decode w = .ok (r.read w) := by
  rw [decode_of_opcField hr (opcField_of_rowSelects hr h), if_pos h]

/-- A word that decodes is selected by the row of its command. -/
theorem exists_row_of_decode {w : Word} {i : Instr} (h : decode w = .ok i) :
    ∃ r ∈ opcodeMap, rowSelects w r = true ∧ i = r.read w := by
  unfold decode at h
  split at h
  · rename_i r hr
    exact ⟨r, List.mem_of_find?_eq_some hr, by simpa using List.find?_some hr, by simpa [eq_comm] using h⟩
  · simp at h

end Sys2Proof
end

