-- ==== Sys2Proof/Laws/State.lean ====
section
/-! SUPPORT. One lemma per field and update: what the named operations leave of each field of State. -/

namespace Sys2Proof.Machine

variable (s : State)

@[simp] theorem memWrite_params (off : Nat) (v : Byte) : (memWrite off v s).params = s.params := rfl
@[simp] theorem memWrite_acc (off : Nat) (v : Byte) : (memWrite off v s).acc = s.acc := rfl
@[simp] theorem memWrite_pkt (off : Nat) (v : Byte) : (memWrite off v s).pkt = memStore s.pkt off v := rfl
@[simp] theorem memWrite_hostMoves (off : Nat) (v : Byte) : (memWrite off v s).hostMoves = s.hostMoves := rfl
@[simp] theorem memWrite_responses (off : Nat) (v : Byte) : (memWrite off v s).responses = s.responses := rfl
@[simp] theorem memWrite_freeDraws (off : Nat) (v : Byte) : (memWrite off v s).freeDraws = s.freeDraws := rfl

@[simp] theorem accWrite_params (v : Crc16) : (accWrite v s).params = s.params := rfl
@[simp] theorem accWrite_acc (v : Crc16) : (accWrite v s).acc = v := rfl
@[simp] theorem accWrite_pkt (v : Crc16) : (accWrite v s).pkt = s.pkt := rfl
@[simp] theorem accWrite_hostMoves (v : Crc16) : (accWrite v s).hostMoves = s.hostMoves := rfl
@[simp] theorem accWrite_responses (v : Crc16) : (accWrite v s).responses = s.responses := rfl
@[simp] theorem accWrite_freeDraws (v : Crc16) : (accWrite v s).freeDraws = s.freeDraws := rfl

@[simp] theorem respond_params (st : Status) (d : Data24) : (respond st d s).params = s.params := rfl
@[simp] theorem respond_acc (st : Status) (d : Data24) : (respond st d s).acc = s.acc := rfl
@[simp] theorem respond_pkt (st : Status) (d : Data24) : (respond st d s).pkt = s.pkt := rfl
@[simp] theorem respond_hostMoves (st : Status) (d : Data24) : (respond st d s).hostMoves = s.hostMoves := rfl
@[simp] theorem respond_responses (st : Status) (d : Data24) :
    (respond st d s).responses = s.responses ++ [responseWord st d] := rfl
@[simp] theorem respond_freeDraws (st : Status) (d : Data24) : (respond st d s).freeDraws = s.freeDraws := rfl

@[simp] theorem assertReset_params : (assertReset s).params = s.params := rfl
@[simp] theorem assertReset_acc : (assertReset s).acc = s.params.crc16Init := rfl
@[simp] theorem assertReset_pkt : (assertReset s).pkt = s.pkt := rfl
@[simp] theorem assertReset_hostMoves : (assertReset s).hostMoves = s.hostMoves := rfl
@[simp] theorem assertReset_responses : (assertReset s).responses = s.responses := rfl
@[simp] theorem assertReset_freeDraws : (assertReset s).freeDraws = s.freeDraws := rfl

@[simp] theorem abandonCommand_params (offs : List Nat) (t : State) :
    (abandonCommand offs s t).params = s.params := rfl
@[simp] theorem abandonCommand_acc (offs : List Nat) (t : State) :
    (abandonCommand offs s t).acc = s.params.crc16Init := rfl
@[simp] theorem abandonCommand_pkt (offs : List Nat) (t : State) :
    (abandonCommand offs s t).pkt = storeFreeBytes offs s.freeDraws s.pkt := rfl
@[simp] theorem abandonCommand_hostMoves (offs : List Nat) (t : State) :
    (abandonCommand offs s t).hostMoves = s.hostMoves := rfl
@[simp] theorem abandonCommand_responses (offs : List Nat) (t : State) : (abandonCommand offs s t).responses =
    if Config.freeDelivered s.freeDraws then t.responses else s.responses := rfl
@[simp] theorem abandonCommand_freeDraws (offs : List Nat) (t : State) :
    (abandonCommand offs s t).freeDraws = s.freeDraws + offs.length + 1 := rfl

@[simp] theorem writeField24_params (base : Nat) (v : Data24) : (writeField24 base v s).params = s.params := rfl
@[simp] theorem writeField24_acc (base : Nat) (v : Data24) : (writeField24 base v s).acc = s.acc := rfl
@[simp] theorem writeField24_hostMoves (base : Nat) (v : Data24) :
    (writeField24 base v s).hostMoves = s.hostMoves := rfl
@[simp] theorem writeField24_responses (base : Nat) (v : Data24) :
    (writeField24 base v s).responses = s.responses := rfl
@[simp] theorem writeField24_freeDraws (base : Nat) (v : Data24) :
    (writeField24 base v s).freeDraws = s.freeDraws := rfl

end Sys2Proof.Machine
end

