-- ==== Sys2Proof/Laws/Memory.lean ====
section
/-! SUPPORT. The packet buffer: what a read finds after a write, and that every operation keeps the canonical form. -/

namespace Sys2Proof.Machine

@[simp] theorem memLookup_nil (off : Nat) : memLookup [] off = none := rfl

/-- A byte reads as what was last stored at its own offset; no other offset is touched. -/
@[simp] theorem memLookup_memStore (m : Memory) (off o : Nat) (v : Byte) :
    memLookup (memStore m off v) o = if o = off then some v else memLookup m o := by
  induction m with
  | nil => simp only [memStore, memLookup, eq_comm]
  | cons c m ih =>
    obtain ⟨b, u⟩ := c
    simp only [memStore]
    split
    · simp only [memLookup, eq_comm (a := off)]
    · split
      · subst_vars
        simp only [memLookup, eq_comm (a := b)]
        split <;> simp_all
      · rename_i hne
        simp only [memLookup, ih]
        split
        · rename_i h
          rw [if_neg (by omega)]
        · rfl

/-- Every entry after a store is the new one or an old one. -/
theorem mem_memStore {m : Memory} {off : Nat} {v : Byte} {c : Host.Cell} (h : c ∈ memStore m off v) :
    c = (off, v) ∨ c ∈ m := by
  induction m with
  | nil => simpa [memStore] using h
  | cons d m ih =>
    simp only [memStore] at h
    split at h
    · simpa using h
    · split at h
      · rcases List.mem_cons.1 h with h | h <;> simp [h]
      · rcases List.mem_cons.1 h with h | h
        · simp [h]
        · rcases ih h with h | h <;> simp [h]

/-- A store keeps the canonical form. -/
theorem memStore_wf {m : Memory} (h : Memory.wf m) (off : Nat) (v : Byte) : Memory.wf (memStore m off v) := by
  induction m with
  | nil => simp [memStore]
  | cons c m ih =>
    obtain ⟨hc, hm⟩ := List.pairwise_cons.1 h
    simp only [memStore]
    split
    · rename_i hlt
      refine List.pairwise_cons.2 ⟨fun d hd => ?_, h⟩
      rcases List.mem_cons.1 hd with rfl | hd
      · exact hlt
      · exact lt_trans hlt (hc d hd)
    · split
      · rename_i heq
        exact List.pairwise_cons.2 ⟨fun d hd => by simpa [heq] using hc d hd, hm⟩
      · refine List.pairwise_cons.2 ⟨fun d hd => ?_, ih hm⟩
        rcases mem_memStore hd with rfl | hd
        · simp only
          omega
        · exact hc d hd

/-- A store within the capacity keeps the buffer within it. -/
theorem memStore_fits {cap : Nat} {m : Memory} (h : Memory.fits cap m) {off : Nat} (hoff : off < cap) (v : Byte) :
    Memory.fits cap (memStore m off v) := by
  intro c hc
  rcases mem_memStore hc with rfl | hc
  · exact hoff
  · exact h c hc

/-- The free stores of a reset during a command keep the canonical form. -/
theorem storeFreeBytes_wf {offs : List Nat} {n : Nat} {m : Memory} (h : Memory.wf m) :
    Memory.wf (storeFreeBytes offs n m) := by
  induction offs generalizing n m with
  | nil => exact h
  | cons o offs ih => exact ih (memStore_wf h o _)

/-- The free stores of a reset during a command stay within the capacity. -/
theorem storeFreeBytes_fits {cap : Nat} {offs : List Nat} {n : Nat} {m : Memory} (h : Memory.fits cap m)
    (hoffs : ∀ o ∈ offs, o < cap) : Memory.fits cap (storeFreeBytes offs n m) := by
  induction offs generalizing n m with
  | nil => exact h
  | cons o offs ih =>
    exact ih (memStore_fits h (hoffs o (by simp)) _) fun p hp => hoffs p (by simp [hp])

/-- The free stores change no other offset. -/
theorem memLookup_storeFreeBytes {offs : List Nat} {n o : Nat} {m : Memory} (h : o ∉ offs) :
    memLookup (storeFreeBytes offs n m) o = memLookup m o := by
  induction offs generalizing n m with
  | nil => rfl
  | cons p offs ih =>
    simp only [List.mem_cons, not_or] at h
    rw [storeFreeBytes, ih h.2, memLookup_memStore, if_neg h.1]

/-- A 24-bit write keeps the canonical form. -/
theorem writeField24_wf {s : State} (h : Memory.wf s.pkt) (base : Nat) (v : Data24) :
    Memory.wf (writeField24 base v s).pkt :=
  memStore_wf (memStore_wf (memStore_wf h _ _) _ _) _ _

/-- What a 24-bit write leaves at each offset (R42). -/
theorem memLookup_writeField24 (s : State) (base : Nat) (v : Data24) (o : Nat) :
    memLookup (writeField24 base v s).pkt o =
      if o = base + 2 then some (v.extractLsb' 0 8)
      else if o = base + 1 then some (v.extractLsb' 8 8)
      else if o = base then some (v.extractLsb' 16 8) else memLookup s.pkt o := by
  simp [writeField24]

/-- Reset memory has the canonical form. -/
theorem reset_pkt_wf (p : Params) : Memory.wf (State.resetWith p).pkt := List.Pairwise.nil

/-- A listed offset of a canonical buffer is not below the first entry's. -/
theorem memLookup_eq_none_of_lt {m : Memory} {o : Nat} (h : ∀ c ∈ m, o < c.1) : memLookup m o = none := by
  induction m with
  | nil => rfl
  | cons c m ih =>
    have := h c (by simp)
    simp only [memLookup]
    rw [if_neg (by omega)]
    exact ih fun d hd => h d (by simp [hd])

end Sys2Proof.Machine
end

