-- ==== Sys2Proof/Laws/Ops.lean ====
section
/-! SUPPORT. For each shared operation one lemma that says what it can do. -/

namespace Sys2Proof.Machine

/-- A read gives a byte exactly where one is written. -/
@[simp] theorem memRead_eq_ok {s : State} {off : Nat} {v : Byte} :
    memRead s off = .ok v ↔ memLookup s.pkt off = some v := by
  unfold memRead
  split <;> simp_all

/-- A read stops exactly where nothing is written, and names its own offset. -/
@[simp] theorem memRead_eq_error {s : State} {off : Nat} {f : Fault} :
    memRead s off = .error f ↔ memLookup s.pkt off = none ∧ f = .unwrittenByte off := by
  cases h : memLookup s.pkt off <;> simp [memRead, h, eq_comm]

/-- A range read gives the bytes of the range, each at its place. -/
theorem memReadRange_eq_ok {s : State} {off n : Nat} {bs : List Byte} :
    memReadRange s off n = .ok bs ↔
      bs.length = n ∧ ∀ k (h : k < bs.length), memLookup s.pkt (off + k) = some bs[k] := by
  induction n generalizing off bs with
  | zero =>
    simp only [memReadRange, Except.ok.injEq, List.length_eq_zero_iff]
    constructor
    · rintro rfl
      simp
    · exact fun h => h.1.symm
  | succ n ih =>
    cases hr : memRead s off with
    | error f =>
      have h0 := (memRead_eq_error.1 hr).1
      simp only [memReadRange, hr, reduceCtorEq, false_iff, not_and]
      intro hl hk
      have := hk 0 (by omega)
      simp [h0] at this
    | ok b =>
      have h0 := memRead_eq_ok.1 hr
      simp only [memReadRange, hr]
      constructor
      · intro h
        cases hs : memReadRange s (off + 1) n with
        | error f => simp [hs] at h
        | ok cs =>
          obtain ⟨hl, hk⟩ := ih.1 hs
          simp only [hs, Except.ok.injEq] at h
          subst h
          refine ⟨by simp [hl], fun k hk' => ?_⟩
          cases k with
          | zero => simpa using h0
          | succ k => simpa [Nat.add_assoc, Nat.add_comm 1 k] using hk k (by simpa using hk')
      · rintro ⟨hl, hk⟩
        cases bs with
        | nil => simp at hl
        | cons c cs =>
          have hc : b = c := by
            have := hk 0 (by simp)
            simp only [Nat.add_zero, h0, List.getElem_cons_zero, Option.some.injEq] at this
            exact this
          have hcs : memReadRange s (off + 1) n = .ok cs := ih.2
            ⟨by simpa using hl, fun k hk' => by
              have := hk (k + 1) (by simpa using hk')
              rwa [show off + 1 + k = off + (k + 1) by omega]⟩
          simp [hcs, hc]

/-- A range read stops at the first offset of the range that nothing has written. -/
theorem memReadRange_eq_error {s : State} {off n : Nat} {f : Fault} :
    memReadRange s off n = .error f ↔
      ∃ k < n, (∀ j < k, memLookup s.pkt (off + j) ≠ none) ∧ memLookup s.pkt (off + k) = none ∧
        f = .unwrittenByte (off + k) := by
  induction n generalizing off with
  | zero => simp [memReadRange]
  | succ n ih =>
    cases hr : memRead s off with
    | error g =>
      obtain ⟨h0, rfl⟩ := memRead_eq_error.1 hr
      simp only [memReadRange, hr, Except.error.injEq]
      constructor
      · rintro rfl
        exact ⟨0, by simp, by simp, by simpa using h0, by simp⟩
      · rintro ⟨k, -, hj, -, rfl⟩
        rcases Nat.eq_zero_or_pos k with rfl | hk
        · simp
        · exact absurd h0 (hj 0 hk)
    | ok b =>
      have h0 := memRead_eq_ok.1 hr
      have hstep : memReadRange s off (n + 1) = .error f ↔ memReadRange s (off + 1) n = .error f := by
        simp only [memReadRange, hr]
        split <;> simp_all
      rw [hstep, ih]
      constructor
      · rintro ⟨k, hk, hj, hn, rfl⟩
        refine ⟨k + 1, by omega, fun j hj' => ?_, by rwa [Nat.add_comm k, ← Nat.add_assoc], by congr 1; omega⟩
        cases j with
        | zero => simp [h0]
        | succ j => simpa [Nat.add_assoc, Nat.add_comm 1 j] using hj j (by omega)
      · rintro ⟨k, hk, hj, hn, rfl⟩
        cases k with
        | zero => simp [h0] at hn
        | succ k =>
          refine ⟨k, by omega, fun j hj' => ?_, by rwa [Nat.add_assoc, Nat.add_comm 1], by congr 1; omega⟩
          simpa [Nat.add_assoc, Nat.add_comm 1 j] using hj (j + 1) (by omega)

/-- What follows a read runs exactly when the read gives a value. -/
theorem afterRead_eq_next {α : Type} {r : Except Fault α} {k : α → Result} {t : State} :
    afterRead r k = .next t ↔ ∃ a, r = .ok a ∧ k a = .next t := by
  unfold afterRead
  split <;> simp

@[simp] theorem afterRead_ok {α : Type} (a : α) (k : α → Result) : afterRead (.ok a) k = k a := rfl
@[simp] theorem afterRead_error {α : Type} (f : Fault) (k : α → Result) : afterRead (.error f) k = .fault f := rfl

/-- A command that completes leaves its state with one more response. -/
@[simp] theorem complete_eq_next {d : Data24} {s t : State} : complete d s = .next t ↔ respond .ok d s = t := by
  simp [complete]

/-- A command that raises a fault leaves its state with one more response (R131). -/
@[simp] theorem raiseFault_eq_next {c : FaultCause} {s t : State} :
    raiseFault c s = .next t ↔ respond (causeStatus c) 0#24 s = t := by
  simp [raiseFault]

/-- A field read gives a value exactly when its three bytes are written. -/
theorem readField24_eq_ok {s : State} {base : Nat} {v : Data24} :
    readField24 s base = .ok v ↔
      ∃ a b c, memLookup s.pkt base = some a ∧ memLookup s.pkt (base + 1) = some b ∧
        memLookup s.pkt (base + 2) = some c ∧ v = a ++ b ++ c := by
  cases h0 : memLookup s.pkt base <;> cases h1 : memLookup s.pkt (base + 1) <;>
    cases h2 : memLookup s.pkt (base + 2) <;> simp [readField24, memRead, h0, h1, h2, eq_comm]

/-- A field read stops at the first of its bytes that nothing has written. -/
theorem readField24_eq_error {s : State} {base : Nat} {f : Fault} :
    readField24 s base = .error f ↔
      (memLookup s.pkt base = none ∧ f = .unwrittenByte base) ∨
      (memLookup s.pkt base ≠ none ∧ memLookup s.pkt (base + 1) = none ∧ f = .unwrittenByte (base + 1)) ∨
      (memLookup s.pkt base ≠ none ∧ memLookup s.pkt (base + 1) ≠ none ∧ memLookup s.pkt (base + 2) = none ∧
        f = .unwrittenByte (base + 2)) := by
  cases h0 : memLookup s.pkt base <;> cases h1 : memLookup s.pkt (base + 1) <;>
    cases h2 : memLookup s.pkt (base + 2) <;> simp [readField24, memRead, h0, h1, h2, eq_comm]

/-- The range checks are integer comparisons against PKT_CAP (R44). -/
@[simp] theorem offsetInRange_iff {s : State} {off : Field12} :
    offsetInRange s off = true ↔ off.toNat < s.params.pktCap := by
  simp [offsetInRange]

@[simp] theorem spanInRange_iff {s : State} {off cnt : Field12} :
    spanInRange s off cnt = true ↔ off.toNat + cnt.toNat ≤ s.params.pktCap := by
  simp [spanInRange]

/-- The response words with status OK are the 24-bit values, zero-extended (R71). -/
@[simp] theorem responseWord_ok (d : Data24) : responseWord .ok d = d.setWidth 32 := by
  apply BitVec.eq_of_toNat_eq
  have hd : d.toNat < 2 ^ 24 := d.isLt
  simp only [responseWord, statusCode, BitVec.toNat_append, BitVec.toNat_ofNat, BitVec.toNat_setWidth]
  simpa using (Nat.mod_eq_of_lt (show d.toNat < 4294967296 by omega)).symm

/-- The two fault responses (R131). -/
@[simp] theorem responseWord_illegal : responseWord .illegal 0#24 = 0x10000000#32 := rfl
@[simp] theorem responseWord_range : responseWord .range 0#24 = 0x20000000#32 := rfl

end Sys2Proof.Machine
end

