-- ==== Sys2Proof/Laws/PerInstr.lean ====
section
/-! SUPPORT. Statements made per instruction: the opcode field and the reserved bits of each encoding
(spec/30_encoding.md R61, R62). -/

namespace Sys2Proof.Laws

/-- The OPC value of R65 for each command. -/
def opcodeOf : Instr → BitVec 4
  | .crcInit => 0x1#4
  | .crcLoad _ => 0x2#4
  | .crcByte _ => 0x3#4
  | .crcBuf _ _ => 0x4#4
  | .crcRead => 0x5#4
  | .pktRdb _ => 0x6#4
  | .pktWrb _ _ => 0x7#4
  | .getSrc => 0x8#4
  | .setSrc _ => 0x9#4
  | .getDst => 0xA#4
  | .setDst _ => 0xB#4
  | .getPlen => 0xC#4
  | .setLen _ => 0xD#4
  | .reserved0 _ => 0x0#4
  | .reservedE _ => 0xE#4
  | .reservedF _ => 0xF#4

/-- Bits 31:28 of the encoding are the command's opcode, and bits 27:24 are zero unless the opcode is reserved. -/
def EncodedOpcode.Statement (i : Instr) : Prop :=
  opcField (encode i) = opcodeOf i ∧ (i.WellFormed = true → (encode i).extractLsb' 24 4 = 0#4)

theorem EncodedOpcode.crcInit : EncodedOpcode.Statement .crcInit :=
  ⟨opcField_commandWord _ _, fun _ => zeroField_commandWord _ _⟩

theorem EncodedOpcode.crcLoad (v : Crc16) : EncodedOpcode.Statement (.crcLoad v) :=
  ⟨opcField_commandWord _ _, fun _ => zeroField_commandWord _ _⟩

theorem EncodedOpcode.crcByte (b : Byte) : EncodedOpcode.Statement (.crcByte b) :=
  ⟨opcField_commandWord _ _, fun _ => zeroField_commandWord _ _⟩

theorem EncodedOpcode.crcBuf (off cnt : Field12) : EncodedOpcode.Statement (.crcBuf off cnt) :=
  ⟨opcField_commandWord _ _, fun _ => zeroField_commandWord _ _⟩

theorem EncodedOpcode.crcRead : EncodedOpcode.Statement .crcRead :=
  ⟨opcField_commandWord _ _, fun _ => zeroField_commandWord _ _⟩

theorem EncodedOpcode.pktRdb (off : Field12) : EncodedOpcode.Statement (.pktRdb off) :=
  ⟨opcField_commandWord _ _, fun _ => zeroField_commandWord _ _⟩

theorem EncodedOpcode.pktWrb (off : Field12) (b : Byte) : EncodedOpcode.Statement (.pktWrb off b) :=
  ⟨opcField_commandWord _ _, fun _ => zeroField_commandWord _ _⟩

theorem EncodedOpcode.getSrc : EncodedOpcode.Statement .getSrc :=
  ⟨opcField_commandWord _ _, fun _ => zeroField_commandWord _ _⟩

theorem EncodedOpcode.setSrc (v : Data24) : EncodedOpcode.Statement (.setSrc v) :=
  ⟨opcField_commandWord _ _, fun _ => zeroField_commandWord _ _⟩

theorem EncodedOpcode.getDst : EncodedOpcode.Statement .getDst :=
  ⟨opcField_commandWord _ _, fun _ => zeroField_commandWord _ _⟩

theorem EncodedOpcode.setDst (v : Data24) : EncodedOpcode.Statement (.setDst v) :=
  ⟨opcField_commandWord _ _, fun _ => zeroField_commandWord _ _⟩

theorem EncodedOpcode.getPlen : EncodedOpcode.Statement .getPlen :=
  ⟨opcField_commandWord _ _, fun _ => zeroField_commandWord _ _⟩

theorem EncodedOpcode.setLen (n : Byte) : EncodedOpcode.Statement (.setLen n) :=
  ⟨opcField_commandWord _ _, fun _ => zeroField_commandWord _ _⟩

theorem EncodedOpcode.reserved0 (low : BitVec 28) : EncodedOpcode.Statement (.reserved0 low) :=
  ⟨opcField_reservedWord _ _, by simp [Instr.WellFormed]⟩

theorem EncodedOpcode.reservedE (low : BitVec 28) : EncodedOpcode.Statement (.reservedE low) :=
  ⟨opcField_reservedWord _ _, by simp [Instr.WellFormed]⟩

theorem EncodedOpcode.reservedF (low : BitVec 28) : EncodedOpcode.Statement (.reservedF low) :=
  ⟨opcField_reservedWord _ _, by simp [Instr.WellFormed]⟩

end Sys2Proof.Laws
end

