-- ==== Sys2Proof/Tests/Slice0.lean ====
section
/-! SUPPORT. Tests: words and results from spec/95_test_vectors.md and the rules' own examples, the checks' ill-formed
terms, and a witness for the hypotheses of each statement. -/

namespace Sys2Proof.Tests

open Sys2Proof.Machine Sys2Proof.Safety

/-- The default instance with this ACC and buffer. -/
def st (acc : Crc16) (pkt : Memory) : State := { State.reset with acc := acc, pkt := pkt }

/-- What a test looks at: the responses, ACC and the buffer. -/
def seen : Result → Option (List Word × Crc16 × Memory)
  | .next t => some (t.responses, t.acc, t.pkt)
  | .fault _ => none
  | .refused _ => none

/-- The fault a test looks at. -/
def stopped : Result → Option Fault
  | .next _ => none
  | .fault f => some f
  | .refused _ => none

/-- DE AD BE EF at offsets 0 to 3. -/
def deadbeef : Memory := [(0, 0xDE#8), (1, 0xAD#8), (2, 0xBE#8), (3, 0xEF#8)]

/-- The header of program P2: 0C 01 A0 11 12 34 56 AB CD EF. -/
def header : Memory := [(0, 0x0C#8), (1, 0x01#8), (2, 0xA0#8), (3, 0x11#8), (4, 0x12#8), (5, 0x34#8), (6, 0x56#8),
  (7, 0xAB#8), (8, 0xCD#8), (9, 0xEF#8)]

/-! ## Decoding: the verdicts of 95_test_vectors.md section 2.4 and the words of the rules' examples -/

theorem test_decode_crcInit : decode 0x10000000#32 = .ok .crcInit := by rfl
theorem test_decode_crcLoad : decode 0x2000ABCD#32 = .ok (.crcLoad 0xABCD#16) := by rfl
theorem test_decode_crcByte : decode 0x300000C8#32 = .ok (.crcByte 0xC8#8) := by rfl
theorem test_decode_crcBuf : decode 0x40ABC123#32 = .ok (.crcBuf 0xABC#12 0x123#12) := by rfl
theorem test_decode_crcRead : decode 0x50000000#32 = .ok .crcRead := by rfl
theorem test_decode_pktRdb : decode 0x60005000#32 = .ok (.pktRdb 5#12) := by rfl
theorem test_decode_pktWrb : decode 0x7000A0FF#32 = .ok (.pktWrb 10#12 0xFF#8) := by rfl
theorem test_decode_getSrc : decode 0x80000000#32 = .ok .getSrc := by rfl
theorem test_decode_setSrc : decode 0x90FFFFFF#32 = .ok (.setSrc 0xFFFFFF#24) := by rfl
theorem test_decode_getDst : decode 0xA0000000#32 = .ok .getDst := by rfl
theorem test_decode_setDst : decode 0xB0000000#32 = .ok (.setDst 0#24) := by rfl
theorem test_decode_getPlen : decode 0xC0000000#32 = .ok .getPlen := by rfl
theorem test_decode_setLen : decode 0xD00000FF#32 = .ok (.setLen 255#8) := by rfl
theorem test_decode_reserved0 : decode 0x0FFFFFFF#32 = .ok (.reserved0 0xFFFFFFF#28) := by rfl
theorem test_decode_reservedE : decode 0xE0000000#32 = .ok (.reservedE 0#28) := by rfl
theorem test_decode_reservedF : decode 0xFFFFFFFF#32 = .ok (.reservedF 0xFFFFFFF#28) := by rfl

/-- The words that section 2.4 calls illegal for a must-be-zero bit, one for each such field. -/
theorem test_decode_mustBeZero :
    [0x1F000000#32, 0x2001ABCD#32, 0x60005001#32, 0x7000A1FF#32, 0xA0000001#32, 0xD0000100#32].map decode =
      List.replicate 6 (.error .mustBeZeroBitSet) := by rfl

/-- The table's numbering of bits is the word's own (opcode_table.json). -/
theorem test_decodeTableWord : decodeTableWord 32 0x400FF002 = some (.crcBuf 255#12 2#12) := by rfl

theorem test_encode_crcBuf : encode (.crcBuf 255#12 2#12) = 0x400FF002#32 := by rfl
theorem test_encode_pktWrb : encode (.pktWrb 2#12 0xA0#8) = 0x700020A0#32 := by rfl

/-! ## The checks refuse ill-formed terms -/

theorem test_reserved0_ill_formed : (Instr.reserved0 0#28).WellFormed = false := by rfl
theorem test_reservedE_ill_formed : (Instr.reservedE 0#28).WellFormed = false := by rfl
theorem test_reservedF_ill_formed : (Instr.reservedF 0#28).WellFormed = false := by rfl
theorem test_crcBuf_well_formed : (Instr.crcBuf 0xFFF#12 0xFFF#12).WellFormed = true := by rfl

/-- One operand too large for each field of R72. -/
theorem test_asm_too_large :
    [AsmCommand.crcLoad 0x10000, .crcByte 0x100, .crcBuf 4096 0, .crcBuf 0 4096, .pktRdb 4096, .pktWrb 4096 0,
      .pktWrb 0 0x100, .setSrc 0x1000000, .setDst 0x1000000, .setLen 256].map asmFits = List.replicate 10 false := by
  rfl

/-- R6: each constraint refuses an instance that breaks it. -/
theorem test_params_ill_formed :
    ¬ (Params.mk 0x8004#16 0#16 256).Valid ∧ ¬ (Params.mk 0x8005#16 0#16 9).Valid ∧
    ¬ (Params.mk 0x8005#16 0#16 4097).Valid ∧ Params.defaultInstance.Valid := by decide

/-- A buffer out of order, and one beyond the capacity, are refused. -/
theorem test_memory_ill_formed :
    ¬ Memory.wf [(1, 0#8), (0, 0#8)] ∧ ¬ Memory.wf [(1, 0#8), (1, 0#8)] ∧ ¬ Memory.fits 10 [(10, 0#8)] := by decide

/-! ## The CRC arithmetic: 95_test_vectors.md sections 2.1 and 2.2 -/

/-- "123456789" from 0x0000: the catalogue value 0xFEE8. -/
theorem test_crcFold_check : crcFold 0x8005#16 0x0000#16
    [0x31#8, 0x32#8, 0x33#8, 0x34#8, 0x35#8, 0x36#8, 0x37#8, 0x38#8, 0x39#8] = 0xFEE8#16 := by decide +kernel

/-- DE AD BE EF from 0xD77F. -/
theorem test_crcFold_deadbeef : crcFold 0x8005#16 0xD77F#16 [0xDE#8, 0xAD#8, 0xBE#8, 0xEF#8] = 0xBC03#16 := by decide +kernel

/-- T[0xD6] = 0x82F7, and the table form of the traced step gives 0xFDF7. -/
theorem test_crcTable : crcTableEntry 0x8005#16 0xD6#8 = 0x82F7#16 ∧
    crcStepByTable 0x8005#16 0xD77F#16 0x01#8 = 0xFDF7#16 := by decide

/-! ## The commands: vectors V1 to V21 and W1 to W18 -/

theorem test_crcInit_V1 : seen (execWord 0x10000000#32 (st 0x1234#16 [])) = some ([0#32], 0xD77F#16, []) := by decide
theorem test_crcInit_V18 :
    seen (execWord 0x10000001#32 (st 0xFFFF#16 [])) = some ([0x10000000#32], 0xFFFF#16, []) := by decide
theorem test_crcLoad_V2 : seen (execWord 0x2000FFFF#32 (st 0x1234#16 [])) = some ([0#32], 0xFFFF#16, []) := by decide
theorem test_crcLoad_V19 :
    seen (execWord 0x21001234#32 (st 0xFFFF#16 [])) = some ([0x10000000#32], 0xFFFF#16, []) := by decide
theorem test_crcByte_V4 : seen (execWord 0x30000001#32 (st 0x0000#16 [])) = some ([0#32], 0x8005#16, []) := by decide
theorem test_crcByte_V6 : seen (execWord 0x300000FF#32 (st 0xD77F#16 [])) = some ([0#32], 0x7FF0#16, []) := by decide
theorem test_crcBuf_V9 :
    seen (execWord 0x40002002#32 (st 0x34EC#16 deadbeef)) = some ([0#32], 0xBC03#16, deadbeef) := by decide +kernel

/-- V11 to V13 and V15: an empty range at PKT_CAP is in range, and one byte beyond is not. -/
theorem test_crcBuf_range :
    [0x40100000#32, 0x40101000#32, 0x400FF002#32, 0x40000FFF#32].map (fun w => seen (execWord w (st 0xABCD#16 []))) =
      [some ([0#32], 0xABCD#16, []), some ([0x20000000#32], 0xABCD#16, []), some ([0x20000000#32], 0xABCD#16, []),
       some ([0x20000000#32], 0xABCD#16, [])] := by decide

/-- V21: ILLEGAL goes before RANGE. -/
theorem test_illegal_before_range_V21 :
    seen (execWord 0x41FFF001#32 (st 0xFFFF#16 [])) = some ([0x10000000#32], 0xFFFF#16, []) := by decide

theorem test_crcRead_V16 :
    seen (execWord 0x50000000#32 (st 0xFEE8#16 [])) = some ([0x0000FEE8#32], 0xFEE8#16, []) := by decide
theorem test_pktRdb_W15 :
    seen (execWord 0x600FF000#32 (st 0#16 [(255, 0x5A#8)])) = some ([0x5A#32], 0#16, [(255, 0x5A#8)]) := by decide
theorem test_pktRdb_W16 : seen (execWord 0x60100000#32 (st 0#16 [])) = some ([0x20000000#32], 0#16, []) := by decide
theorem test_pktWrb_W6 : seen (execWord 0x700050AA#32 (st 0#16 [(4, 0x12#8), (5, 0x34#8), (6, 0x56#8)])) =
    some ([0#32], 0#16, [(4, 0x12#8), (5, 0xAA#8), (6, 0x56#8)]) := by decide
theorem test_pktWrb_W17 : seen (execWord 0x701000FF#32 (st 0#16 [])) = some ([0x20000000#32], 0#16, []) := by decide
theorem test_getSrc_W2 : seen (execWord 0x80000000#32 (st 0#16 header)) = some ([0x00123456#32], 0#16, header) := by
  decide
theorem test_setSrc_W1 : seen (execWord 0x90123456#32 (st 0#16 [])) =
    some ([0#32], 0#16, [(4, 0x12#8), (5, 0x34#8), (6, 0x56#8)]) := by decide
theorem test_getDst_W4 : seen (execWord 0xA0000000#32 (st 0#16 header)) = some ([0x00ABCDEF#32], 0#16, header) := by
  decide
theorem test_setDst_W3 : seen (execWord 0xB0ABCDEF#32 (st 0#16 [])) =
    some ([0#32], 0#16, [(7, 0xAB#8), (8, 0xCD#8), (9, 0xEF#8)]) := by decide
theorem test_getPlen_W8 : seen (execWord 0xC0000000#32 (st 0#16 [(0, 0xFF#8)])) =
    some ([0x000000F6#32], 0#16, [(0, 0xFF#8)]) := by decide
theorem test_getPlen_W10 : seen (execWord 0xC0000000#32 (st 0#16 [(0, 0x00#8)])) =
    some ([0x00FFFFF7#32], 0#16, [(0, 0x00#8)]) := by decide
theorem test_setLen_W12 : seen (execWord 0xD00000F6#32 (st 0#16 [])) = some ([0#32], 0#16, [(0, 0xFF#8)]) := by decide
theorem test_setLen_W14 : seen (execWord 0xD00000FF#32 (st 0#16 [])) = some ([0#32], 0#16, [(0, 0x08#8)]) := by decide

/-- P3, commands 11 and 17: reserved opcodes answer ILLEGAL. -/
theorem test_reserved_P3 :
    [0x00000000#32, 0xE0000000#32, 0xF0000000#32].map (fun w => seen (execWord w (st 0xBC03#16 []))) =
      List.replicate 3 (some ([0x10000000#32], 0xBC03#16, [])) := by decide

/-- I1: reading what nothing has written stops, and names the first such offset. -/
theorem test_unwritten :
    stopped (execWord 0x80000000#32 (st 0#16 [(4, 0x12#8)])) = some (.unwrittenByte 5) := by decide

/-! ## Steps -/

/-- From the launch state a placed word is what the first step runs. -/
theorem test_step_withFetchWord :
    seen (step (State.reset.withFetchWord 32 0x30000000)) = some ([0#32], 0x7DF2#16, []) := by decide

/-- The reset input restores ACC and leaves the buffer (R150, R151). -/
theorem test_step_reset :
    seen (step { st 0x1234#16 deadbeef with hostMoves := [.reset] }) = some ([], 0xD77F#16, deadbeef) := by decide

/-- With no move the block idles (R141). -/
theorem test_step_idle : seen (step (st 0x1234#16 deadbeef)) = some ([], 0x1234#16, deadbeef) := by decide

/-! ## The assembler -/

theorem test_assemble_P2 : assemble "SET_MSGID 0x01 ; the message\n\n CRC_BUF 0, 13\nCRC16_FRESH 0,4" =
    .ok [0x70001001#32, 0x4000000D#32, 0x10000000#32, 0x40000004#32, 0x50000000#32] := by decide
theorem test_assemble_refusals :
    ["CRC_LOAD 65536", "CRC_JUMP", "GET_SRC 1", "SET_LEN 0x"].map assemble =
      [.error .operandTooLarge, .error .unknownMnemonic, .error .operandCount, .error .badNumber] := by decide

theorem test_disassemble : disassemble (.pktWrb 2#12 0xA0#8) = some (.pktWrb 2 0xA0) := by rfl

/-! ## Witnesses: concrete states and operands that meet the hypotheses of each statement -/

/-- Program P2's header, after one response, with moves to come. -/
def w0 : State := { st 0xD77F#16 header with responses := [0x00000000#32], hostMoves := [.command 0x80000000#32, .reset] }

theorem witness_inv : Inv w0 :=
  ⟨by decide, by decide, by decide, fun r hr => by
    rw [show r = 0x00000000#32 from List.mem_singleton.1 hr]
    decide⟩

theorem witness_faultFree : FaultFree w0 := fun r hr => by
  rw [show r = 0x00000000#32 from List.mem_singleton.1 hr]
  decide

/-- DE AD BE EF is held at offset 0. -/
theorem witness_holdsBytes : HoldsBytes (st 0#16 deadbeef) 0 [0xDE#8, 0xAD#8, 0xBE#8, 0xEF#8] := fun k h => by
  have : k < 4 := h
  interval_cases k <;> rfl

theorem witness_ResetInputLoadsAccumulatorOnly : { w0 with hostMoves := [.reset] }.hostMoves = .reset :: [] := rfl

theorem witness_LaunchStateMeetsInvariant : (Params.mk 0x1021#16 0xFFFF#16 10).Valid ∧
    (Params.mk 0x0001#16 0#16 4096).Valid := by decide

/-- One witness for each clause: a word that decodes, one that does not, and no move. -/
theorem witness_StepRunsTheDecodedCommand :
    (w0.hostMoves = .command 0x80000000#32 :: [.reset] ∧ decode 0x80000000#32 = .ok .getSrc) ∧
    decode 0x80000001#32 = .error .mustBeZeroBitSet ∧ State.reset.hostMoves = [] := ⟨⟨rfl, rfl⟩, rfl, rfl⟩

theorem witness_EncodeOfDecodeIsTheWord : decode 0x400FF002#32 = .ok (.crcBuf 255#12 2#12) := rfl

/-- A reserved opcode, and a must-be-zero bit of a defined one. -/
theorem witness_IllegalWordsAreExactlyTheReservedOnes :
    reservedOpcode 0xE0000000#32 ∧ ¬ zeroFieldsClear 0x60005001#32 :=
  ⟨.inr (.inl rfl), fun h => absurd (h.2.2.2.2.1 rfl) (by decide)⟩

theorem witness_MaskedMismatchIsIllegal :
    ∃ r ∈ opcodeMap.take 13, opcField 0x2001ABCD#32 = opcField r.matchBits :=
  ⟨_, List.mem_cons_of_mem _ List.mem_cons_self, rfl⟩

theorem witness_OperandsAreUnsignedBitFields :
    decode 0x2000FFFF#32 = .ok (.crcLoad 0xFFFF#16) ∧ decode 0x300000FF#32 = .ok (.crcByte 0xFF#8) ∧
    decode 0x40FFFFFF#32 = .ok (.crcBuf 0xFFF#12 0xFFF#12) ∧ decode 0x60FFF000#32 = .ok (.pktRdb 0xFFF#12) ∧
    decode 0x70FFF0FF#32 = .ok (.pktWrb 0xFFF#12 0xFF#8) ∧ decode 0x90FFFFFF#32 = .ok (.setSrc 0xFFFFFF#24) ∧
    decode 0xB0FFFFFF#32 = .ok (.setDst 0xFFFFFF#24) ∧ decode 0xD00000FF#32 = .ok (.setLen 0xFF#8) :=
  ⟨rfl, rfl, rfl, rfl, rfl, rfl, rfl, rfl⟩

theorem witness_ReservedOpcodesAnswerIllegal : reservedOpcode 0x00000000#32 := .inl rfl

/-- For each command, in opcode order, a word of its opcode with its lowest must-be-zero bit set. -/
theorem witness_illegal_clauses :
    ([(0x10000001#32, 0x0FFFFFFF#32), (0x20010000#32, 0x0FFF0000#32), (0x30000100#32, 0x0FFFFF00#32),
      (0x41000000#32, 0x0F000000#32), (0x50000001#32, 0x0FFFFFFF#32), (0x60000001#32, 0x0F000FFF#32),
      (0x70000100#32, 0x0F000F00#32), (0x80000001#32, 0x0FFFFFFF#32), (0x91000000#32, 0x0F000000#32),
      (0xA0000001#32, 0x0FFFFFFF#32), (0xB1000000#32, 0x0F000000#32), (0xC0000001#32, 0x0FFFFFFF#32),
      (0xD0000100#32, 0x0FFFFF00#32)].map fun c => (opcField c.1, c.1 &&& c.2 != 0#32)) =
    [(1#4, true), (2#4, true), (3#4, true), (4#4, true), (5#4, true), (6#4, true), (7#4, true), (8#4, true),
     (9#4, true), (10#4, true), (11#4, true), (12#4, true), (13#4, true)] := by decide

/-- The last range within PKT_CAP, and the first beyond it. -/
theorem witness_CrcBufAbsorbsTheRange :
    ((0#12).toNat + (4#12).toNat ≤ (st 0#16 deadbeef).params.pktCap ∧ [0xDE#8, 0xAD#8, 0xBE#8, 0xEF#8].length = (4#12).toNat) ∧
    (255#12).toNat + (1#12).toNat ≤ State.reset.params.pktCap ∧
    State.reset.params.pktCap < (255#12).toNat + (2#12).toNat := by decide

theorem witness_PktRdbReturnsTheByte :
    ((255#12).toNat < (st 0#16 [(255, 0x5A#8)]).params.pktCap ∧ memLookup [(255, 0x5A#8)] (255#12).toNat = some 0x5A#8) ∧
    State.reset.params.pktCap ≤ (256#12).toNat := by decide

theorem witness_PktWrbStoresTheByte : (255#12).toNat < State.reset.params.pktCap ∧
    State.reset.params.pktCap ≤ (256#12).toNat := by decide

/-- The header holds both address fields and LEN. -/
theorem witness_fields_written :
    ([4, 5, 6, 7, 8, 9, 0].map fun o => memLookup w0.pkt o) =
      [some 0x12#8, some 0x34#8, some 0x56#8, some 0xAB#8, some 0xCD#8, some 0xEF#8, some 0x0C#8] := by decide

/-- One unwritten byte for each clause: the first of a field, the last of a field, the second of a range. -/
theorem witness_UnwrittenReadsStop :
    (memLookup State.reset.pkt (0#12).toNat = none ∧ (0#12).toNat < State.reset.params.pktCap) ∧
    memLookup State.reset.pkt 4 = none ∧
    ((∀ j < 2, memLookup [(7, 0#8), (8, 0#8)] (7 + j) ≠ none) ∧ memLookup [(7, 0#8), (8, 0#8)] (7 + 2) = none) ∧
    ((0#12).toNat + (2#12).toNat ≤ State.reset.params.pktCap ∧ (∀ j < 1, memLookup [(0, 0#8)] (0 + j) ≠ none) ∧
      memLookup [(0, 0#8)] (0 + 1) = none) := by decide

theorem witness_ReadsHaveNoSideEffects :
    exec .crcRead w0 = .next (answered 0x0000D77F#32 w0) ∧ exec .getSrc w0 = .next (answered 0x00123456#32 w0) ∧
    exec (.pktRdb 4#12) w0 = .next (answered 0x00000012#32 w0) ∧
    exec (.pktRdb 4#12) (answered 0x00000012#32 w0) = .next (answered 0x00000012#32 (answered 0x00000012#32 w0)) ∧
    exec (.crcBuf 0#12 0#12) w0 = .next (answered 0x00000000#32 w0) := ⟨rfl, rfl, rfl, rfl, rfl⟩

theorem witness_NonStoringCommandsFrame :
    writtenOffsets w0.params.pktCap (.pktWrb 256#12 0#8) = [] ∧
    exec (.pktWrb 256#12 0#8) w0 = .next (answered 0x20000000#32 w0) ∧
    writtenOffsets w0.params.pktCap .getPlen = [] ∧
    exec .getPlen w0 = .next (answered 0x00000003#32 w0) ∧
    (Instr.reservedF 1#28).WellFormed = false ∧
    exec (.reservedF 1#28) w0 = .next (answered 0x10000000#32 w0) := ⟨rfl, rfl, rfl, rfl, rfl, rfl⟩

theorem witness_StoresChangeOnlyTheirOwnBytes :
    exec (.setSrc 1#24) w0 = .next (answered 0#32 (writeField24 4 1#24 w0)) ∧
    exec (.setDst 1#24) w0 = .next (answered 0#32 (writeField24 7 1#24 w0)) ∧
    exec (.setLen 3#8) w0 = .next (answered 0#32 (memWrite 0 12#8 w0)) ∧
    exec (.pktWrb 255#12 1#8) w0 = .next (answered 0#32 (memWrite 255 1#8 w0)) := ⟨rfl, rfl, rfl, rfl⟩

theorem witness_EveryOffsetInRangeIsReadableAndWritable : (255#12).toNat < w0.params.pktCap := by decide

/-- A word that completes, one that is illegal and one out of range: each is answered. -/
theorem witness_answers :
    execWord 0x80000000#32 w0 = .next (answered 0x00123456#32 w0) ∧
    execWord 0x80000001#32 w0 = .next (answered 0x10000000#32 w0) ∧
    execWord 0x60100000#32 w0 = .next (answered 0x20000000#32 w0) ∧ responseStatus 0x20000000#32 ≠ 0#4 :=
  ⟨rfl, rfl, rfl, by decide⟩

theorem witness_IllegalGoesBeforeRange :
    opcField 0x41FFF001#32 = 0x4#4 ∧ ¬ zeroFieldsClear 0x41FFF001#32 ∧
    w0.params.pktCap < (offField 0x41FFF001#32).toNat :=
  ⟨rfl, fun h => absurd h.1 (by decide), by decide⟩

/-- A word that stops keeps stopping after a fault's response. -/
theorem witness_FaultsAreNotSticky :
    execWord 0x600FF000#32 w0 = .fault (.unwrittenByte 255) ∧
    execWord 0x600FF000#32 (answered 0x10000000#32 w0) = .fault (.unwrittenByte 255) := ⟨rfl, rfl⟩

theorem witness_StepKeepsTheInvariant :
    step w0 = .next (answered 0x00123456#32 { w0 with hostMoves := [.reset] }) := rfl

/-- A command that writes nothing, met by a reset: the step answers whatever the free values are. -/
theorem witness_ResetDuringACommand :
    step { w0 with hostMoves := [.resetDuring 0x80000000#32] } =
      .next (abandonCommand [] { w0 with hostMoves := [] } (answered 0x00123456#32 { w0 with hostMoves := [] })) := rfl

theorem witness_RunIsStepsWithOneResponseEach :
    (runWords [0x50000000#32, 0x00000000#32] State.reset = .next
      { State.reset with responses := [0x0000D77F#32, 0x10000000#32] }) ∧
    ({ State.reset with hostMoves := [.command 0x50000000#32, .command 0x00000000#32] }.hostMoves =
      [0x50000000#32, 0x00000000#32].map .command) := ⟨rfl, rfl⟩

theorem witness_ObservationDeterminesTheBlock : observe w0 = observe { w0 with hostMoves := [] } := rfl

theorem witness_FaultFreeRunsIssueLegalWords :
    runWords [0x80000000#32] w0 = .next (answered 0x00123456#32 w0) ∧ FaultFree (answered 0x00123456#32 w0) := by
  refine ⟨rfl, fun r hr => ?_⟩
  have h : r ∈ [0x00000000#32, 0x00123456#32] := hr
  simp only [List.mem_cons, List.not_mem_nil, or_false] at h
  rcases h with rfl | rfl <;> decide

theorem isPolyOf_one {n : Nat} : IsPolyOf 1 (1#(n + 1)) := fun i => by
  simp [Polynomial.coeff_one, BitVec.getLsbD_one, eq_comm]

theorem isPolyOf_zero {n : Nat} : IsPolyOf 0 (0#n) := fun i => by simp

/-- CRC_POLY = 1, ACC = 1, b = 0: one shift by eight places. -/
theorem witness_CrcStepIsThePolynomialRemainder :
    IsPolyOf 1 0x0001#16 ∧ IsPolyOf 0 0x00#8 ∧ IsPolyOf (Polynomial.X ^ 8) (crcStep 0x0001#16 0x0001#16 0x00#8) := by
  refine ⟨isPolyOf_one, isPolyOf_zero, fun i => ?_⟩
  rw [show crcStep 0x0001#16 0x0001#16 0x00#8 = BitVec.twoPow 16 8 by decide, Polynomial.coeff_X_pow,
    BitVec.getLsbD_twoPow]
  by_cases h : i = 8 <;> simp [h, eq_comm]

theorem witness_CrcFoldIsThePolynomialRemainder :
    (∀ k (h : k < [0x00#8].length), IsPolyOf ((fun _ => 0 : Nat → Polynomial (ZMod 2)) k) [0x00#8][k]) ∧
    crcFold 0x0001#16 0x0001#16 [0x00#8] = crcStep 0x0001#16 0x0001#16 0x00#8 := by
  refine ⟨fun k h => ?_, rfl⟩
  have : k < 1 := h
  interval_cases k
  exact isPolyOf_zero

theorem witness_ZeroLengthInputReturnsInit : (256#12).toNat ≤ State.reset.params.pktCap := by decide

/-- Two states that differ outside the range alone. -/
theorem witness_CrcBufDependsOnItsRangeOnly :
    (∀ k < (2#12).toNat, memLookup (st 0#16 deadbeef).pkt ((0#12).toNat + k) =
      memLookup (st 0#16 [(0, 0xDE#8), (1, 0xAD#8)]).pkt ((0#12).toNat + k)) ∧
    (∀ k < (2#12).toNat, memLookup (st 0#16 deadbeef).pkt ((0#12).toNat + k) ≠ none) ∧
    exec (.crcBuf 0#12 0#12) (st 0#16 deadbeef) = .next (answered 0#32 (st 0#16 deadbeef)) := ⟨by decide, by decide, rfl⟩

theorem witness_polynomial_constraint : (0x8005#16).getLsbD 0 = true ∧ (0x1021#16).getLsbD 0 = true ∧ 0x00#8 ≠ 0x80#8 := by
  decide

theorem witness_ChecksumContinuesAcrossASplit :
    (2#12).toNat = (0#12).toNat + (2#12).toNat ∧ (4#12).toNat = (2#12).toNat + (2#12).toNat ∧
    (∀ k < (4#12).toNat, memLookup (st 0#16 deadbeef).pkt ((0#12).toNat + k) ≠ none) ∧
    seen (execAll [.crcBuf 0#12 2#12, .crcBuf 2#12 2#12] (st 0xD77F#16 deadbeef)) =
      some ([0#32, 0#32], 0xBC03#16, deadbeef) := by decide +kernel

theorem witness_CrcIsAffine : [0xDE#8, 0xAD#8].length = [0xBE#8, 0xEF#8].length := rfl

/-- Commands that write elsewhere stand between the write and the read. -/
theorem witness_readBack_between :
    (∀ i ∈ [Instr.setDst 7#24, .pktWrb 10#12 1#8, .crcRead], ∀ o ∈ writtenOffsets 256 i, o ≠ 4 ∧ o ≠ 5 ∧ o ≠ 6 ∧ o ≠ 0) ∧
    (∀ i ∈ [Instr.setSrc 7#24, .pktWrb 10#12 1#8], ∀ o ∈ writtenOffsets 256 i, o ≠ 7 ∧ o ≠ 8 ∧ o ≠ 9) ∧
    (seen (execAll [.setSrc 5#24, .setDst 7#24, .pktWrb 10#12 1#8, .crcRead] State.reset)).isSome = true ∧
    (seen (execAll [.setLen 255#8, .setDst 7#24, .pktWrb 10#12 1#8, .crcRead] State.reset)).isSome = true := by
  decide

/-- One byte of each field, written raw, and read raw after a field write. -/
theorem witness_RawAndFieldAccessAgree :
    (exec .getSrc w0 = .next (answered ((0x123456#24).setWidth 32) w0) ∧ (5#12).toNat = 4 + 1) ∧
    (exec .getDst w0 = .next (answered ((0xABCDEF#24).setWidth 32) w0) ∧ (9#12).toNat = 7 + 2) ∧
    exec (.pktWrb 5#12 0xAA#8) w0 = .next (answered 0#32 (memWrite 5 0xAA#8 w0)) ∧
    exec (.pktWrb 9#12 0xAA#8) w0 = .next (answered 0#32 (memWrite 9 0xAA#8 w0)) ∧
    (5#12).toNat < w0.params.pktCap ∧ (9#12).toNat < w0.params.pktCap := ⟨⟨rfl, rfl⟩, ⟨rfl, rfl⟩, rfl, rfl, by decide, by decide⟩

theorem witness_AssemblerRefusesWhatDoesNotFit :
    asmFits (.crcBuf 4095 4095) = true ∧ asmFits (.crcBuf 4096 0) = false := ⟨rfl, rfl⟩

end Sys2Proof.Tests
end

section
/-! PROOFS. What a command that is answered leaves of the packet buffer (spec/20_memory.md R41, R46, R47). -/

namespace Sys2Proof.Proofs

open Sys2Proof.Machine Sys2Proof.Safety

variable {s t : State}

/-! ## The answer of each kind of command -/

@[simp] theorem answered_pkt (r : Word) (s : State) : (answered r s).pkt = s.pkt := rfl

/-- A command that completes leaves its state with one more response. -/
theorem exists_answered_of_complete {d : Data24} {u : State} (h : complete d u = .next t) :
    ∃ r, t = answered r u :=
  ⟨_, (complete_eq_next.1 h).symm⟩

/-- A command that raises a fault leaves its state with one more response (R131). -/
theorem exists_answered_of_raiseFault {c : FaultCause} (h : raiseFault c s = .next t) :
    ∃ r, t = answered r s :=
  ⟨_, (raiseFault_eq_next.1 h).symm⟩

/-- A read whose value goes into the response alone changes nothing else. -/
theorem exists_answered_of_afterRead {α : Type} {r : Except Fault α} {f : α → Data24}
    (h : afterRead r (fun a => complete (f a) s) = .next t) : ∃ w, t = answered w s := by
  obtain ⟨a, -, ha⟩ := afterRead_eq_next.1 h
  exact exists_answered_of_complete ha

/-- CRC_READ, GET_SRC, GET_DST and GET_PLEN change the response list alone (R46). -/
theorem exists_answered_of_exec_reading {i : Instr} (hi : i ∈ [.crcRead, .getSrc, .getDst, .getPlen])
    (h : exec i s = .next t) : ∃ r, t = answered r s := by
  simp only [List.mem_cons, List.not_mem_nil, or_false] at hi
  rcases hi with rfl | rfl | rfl | rfl
  case inl => exact exists_answered_of_complete h
  all_goals exact exists_answered_of_afterRead h

/-- PKT_RDB changes the response list alone, in range or out of it, so a second one gets the same response
(R46, R131). -/
theorem exec_pktRdb_repeats {off : Field12} (h : exec (.pktRdb off) s = .next t) :
    ∃ r, t = answered r s ∧ exec (.pktRdb off) t = .next (answered r t) := by
  simp only [exec, execPktRdb] at h ⊢
  split at h
  · rename_i hin
    obtain ⟨b, hb, hc⟩ := afterRead_eq_next.1 h
    obtain rfl := complete_eq_next.1 hc
    have hb' : memRead (respond .ok (zextByte b) s) off.toNat = .ok b := hb
    have hin' : offsetInRange (respond .ok (zextByte b) s) off = true := hin
    rw [if_pos hin', hb']
    exact ⟨_, rfl, rfl⟩
  · rename_i hout
    obtain rfl := raiseFault_eq_next.1 h
    have hout' : ¬ offsetInRange (respond .range 0#24 s) off = true := hout
    exact ⟨_, rfl, if_neg hout'⟩

/-- CRC_BUF changes ACC and the response list alone, in range or out of it (R86, R131). -/
theorem exists_answered_of_exec_crcBuf {off cnt : Field12} (h : exec (.crcBuf off cnt) s = .next t) :
    ∃ r a, t = answered r { s with acc := a } := by
  simp only [exec, execCrcBuf] at h
  split at h
  · obtain ⟨bytes, -, hb⟩ := afterRead_eq_next.1 h
    obtain ⟨r, rfl⟩ := exists_answered_of_complete hb
    exact ⟨r, _, rfl⟩
  · obtain ⟨r, rfl⟩ := exists_answered_of_raiseFault h
    exact ⟨r, s.acc, rfl⟩

/-- PKT_WRB in range stores its byte; out of range it changes nothing (R101, R131). -/
theorem exec_pktWrb (off : Field12) (b : Byte) (s : State) :
    exec (.pktWrb off b) s =
      if off.toNat < s.params.pktCap then .next (answered 0#32 (memWrite off.toNat b s)) else rangeAnswer s := by
  simp only [exec, execPktWrb, offsetInRange_iff]
  rfl

/-- PKT_WRB changes PKT and the response list alone, in range or out of it (R47, R131). -/
theorem exists_answered_pkt_of_exec_pktWrb {off : Field12} {b : Byte} (h : exec (.pktWrb off b) s = .next t) :
    ∃ r m, t = answered r { s with pkt := m } := by
  rw [exec_pktWrb] at h
  split at h
  · cases h
    exact ⟨_, _, rfl⟩
  · cases h
    exact ⟨_, s.pkt, rfl⟩

/-- A 24-bit write stores at its three offsets alone (R42). -/
theorem memLookup_writeField24_of_not_mem {base o : Nat} (v : Data24) (ho : o ∉ [base, base + 1, base + 2]) :
    memLookup (writeField24 base v s).pkt o = memLookup s.pkt o := by
  simp only [List.mem_cons, List.not_mem_nil, or_false, not_or] at ho
  obtain ⟨h0, h1, h2⟩ := ho
  rw [memLookup_writeField24, if_neg h2, if_neg h1, if_neg h0]

/-! ## The frame of the packet buffer -/

/-- R41's table: a command changes no byte of PKT but those at the offsets it writes. -/
theorem memLookup_exec_of_not_mem_writtenOffsets {i : Instr} {o : Nat} (h : exec i s = .next t)
    (ho : o ∉ writtenOffsets s.params.pktCap i) : memLookup t.pkt o = memLookup s.pkt o := by
  cases i with
  | crcInit | crcLoad | crcByte =>
    obtain ⟨r, rfl⟩ := exists_answered_of_complete h
    rfl
  | crcBuf =>
    obtain ⟨r, a, rfl⟩ := exists_answered_of_exec_crcBuf h
    rfl
  | crcRead | getSrc | getDst | getPlen =>
    obtain ⟨r, rfl⟩ := exists_answered_of_exec_reading (by simp) h
    rfl
  | pktRdb =>
    obtain ⟨r, rfl, -⟩ := exec_pktRdb_repeats h
    rfl
  | pktWrb off b =>
    rw [exec_pktWrb] at h
    split at h
    · rename_i hlt
      have hne : o ≠ off.toNat := by simpa [writtenOffsets, hlt] using ho
      cases h
      rw [answered_pkt, memWrite_pkt, memLookup_memStore, if_neg hne]
    · cases h
      rfl
  | setSrc v | setDst v =>
    obtain ⟨r, rfl⟩ := exists_answered_of_complete h
    exact memLookup_writeField24_of_not_mem v ho
  | setLen n =>
    have hne : o ≠ offLen := by simpa [writtenOffsets] using ho
    obtain ⟨r, rfl⟩ := exists_answered_of_complete h
    rw [answered_pkt, memWrite_pkt, memLookup_memStore, if_neg hne]
  | reserved0 | reservedE | reservedF =>
    obtain ⟨r, rfl⟩ := exists_answered_of_raiseFault h
    rfl

/-! ## The obligations -/

/-- Settles O27, from the answer of each reading command and R41's frame of every command. -/
theorem readsHaveNoSideEffects : Obligations.ReadsHaveNoSideEffects := by
  refine ⟨fun _ _ _ => exists_answered_of_exec_reading, fun _ _ _ h => (exec_pktRdb_repeats h).imp fun _ hr => hr.1,
    fun off cnt s t h => ?_, fun off s t u ht hu => ?_, fun _ _ _ _ => memLookup_exec_of_not_mem_writtenOffsets⟩
  · obtain ⟨r, a, rfl⟩ := exists_answered_of_exec_crcBuf h
    rfl
  · obtain ⟨r, ht, hrepeat⟩ := exec_pktRdb_repeats ht
    rw [hrepeat] at hu
    cases hu
    exact ⟨r, ht, rfl⟩

/-- Settles O29, from R41's frame of every command: what a store leaves beside the buffer is the state itself. -/
theorem storesChangeOnlyTheirOwnBytes : Obligations.StoresChangeOnlyTheirOwnBytes := by
  refine ⟨fun v s t h => ⟨?_, fun o h4 h5 h6 => ?_⟩, fun v s t h => ⟨?_, fun o h7 h8 h9 => ?_⟩,
    fun n s t h => ⟨?_, fun o h0 => ?_⟩, fun off b s t h => ⟨?_, fun o ho => ?_⟩⟩
  · exact (exists_answered_of_complete h).imp fun _ ht => ⟨_, ht⟩
  · exact memLookup_exec_of_not_mem_writtenOffsets h (by simp [writtenOffsets, offSrc, h4, h5, h6])
  · exact (exists_answered_of_complete h).imp fun _ ht => ⟨_, ht⟩
  · exact memLookup_exec_of_not_mem_writtenOffsets h (by simp [writtenOffsets, offDst, h7, h8, h9])
  · exact (exists_answered_of_complete h).imp fun _ ht => ⟨_, ht⟩
  · exact memLookup_exec_of_not_mem_writtenOffsets h (by simp [writtenOffsets, offLen, h0])
  · exact exists_answered_pkt_of_exec_pktWrb h
  · have hnot : o ∉ writtenOffsets s.params.pktCap (.pktWrb off b) := by
      simp only [writtenOffsets]
      split <;> simp [ho]
    exact memLookup_exec_of_not_mem_writtenOffsets h hnot

end Sys2Proof.Proofs
end

section
/-! PROOFS. Illegal words and operand fields: a row's mask taken apart into the fields it compares
(spec/30_encoding.md R62 to R68), and the expansions of the pseudo-instructions (R73). -/

namespace Sys2Proof.Proofs

open Sys2Proof.Machine Sys2Proof.Safety

variable {w : Word} {i : Instr} {r : OpcodeRow}

/-! ## Masks and the fields they compare -/

/-- The mask of the `len` bits of a word from bit `start` on. -/
def fieldMask (start len : Nat) : Word := (BitVec.allOnes len).setWidth 32 <<< start

theorem getLsbD_fieldMask {start len k : Nat} (hk : k < 32) :
    (fieldMask start len).getLsbD k = decide (start ≤ k ∧ k - start < len) := by
  have : k - start < 32 := by omega
  simp only [fieldMask, BitVec.getLsbD_shiftLeft, BitVec.getLsbD_setWidth, BitVec.getLsbD_allOnes, hk, this,
    decide_true, Bool.true_and, Bool.decide_and, ← decide_not, not_lt]

/-- Two words agree under a field's mask exactly when they agree in the field. -/
theorem and_fieldMask_eq_iff (w v : Word) (start len : Nat) :
    w &&& fieldMask start len = v &&& fieldMask start len ↔ w.extractLsb' start len = v.extractLsb' start len := by
  simp only [BitVec.eq_of_getLsbD_eq_iff, BitVec.getLsbD_and, BitVec.getLsbD_extractLsb']
  constructor <;> intro h k hk
  · by_cases hin : start + k < 32
    · simpa [getLsbD_fieldMask hin, hk] using h (start + k) hin
    · simp [BitVec.getLsbD_of_ge, Nat.le_of_not_lt hin]
  · rw [getLsbD_fieldMask hk]
    by_cases hin : start ≤ k ∧ k - start < len
    · simpa [hin] using h (k - start) hin.2
    · simp [hin]

/-- A word has no bit under a field's mask exactly when the field is zero. -/
theorem and_fieldMask_eq_zero_iff (w : Word) (start len : Nat) :
    w &&& fieldMask start len = 0#32 ↔ w.extractLsb' start len = 0#len := by
  simpa using and_fieldMask_eq_iff w 0#32 start len

/-- Two words agree under two masks together exactly when they agree under each. -/
theorem and_or_eq_iff (w v a b : Word) :
    w &&& (a ||| b) = v &&& (a ||| b) ↔ w &&& a = v &&& a ∧ w &&& b = v &&& b := by
  simp only [BitVec.eq_of_getLsbD_eq_iff, BitVec.getLsbD_and, BitVec.getLsbD_or, ← forall_and]
  refine forall₂_congr fun k _ => ?_
  cases a.getLsbD k <;> cases b.getLsbD k <;> simp

/-! ## The must-be-zero bits -/

/-- The format's own `0` field for each defined opcode (R63): none in formats A and OL. -/
def formatZeroMask (opc : BitVec 4) : Word :=
  if opc ∈ [0x1#4, 0x5#4, 0x8#4, 0xA#4, 0xC#4] then fieldMask 0 24
  else if opc = 0x2#4 then fieldMask 16 8
  else if opc ∈ [0x3#4, 0xD#4] then fieldMask 8 16
  else if opc = 0x6#4 then fieldMask 0 12
  else if opc = 0x7#4 then fieldMask 8 4
  else 0#32

/-- The must-be-zero bits for each opcode: bits 27:24 and the format's `0` field (R62, R63). -/
def mustBeZeroMask (opc : BitVec 4) : Word := fieldMask 24 4 ||| formatZeroMask opc

/-- The `0` fields of R63, format by format, are the bits of the opcode's mask. -/
theorem zeroFieldsClear_iff_and_mustBeZeroMask (w : Word) :
    zeroFieldsClear w ↔ w &&& mustBeZeroMask (opcField w) = 0#32 := by
  rw [zeroFieldsClear, mustBeZeroMask, BitVec.and_or_distrib_left, BitVec.or_eq_zero_iff, and_fieldMask_eq_zero_iff,
    formatZeroMask]
  refine and_congr_right fun _ => ?_
  generalize opcField w = opc
  split_ifs with hN hH hB hO hOB
  · simp only [List.mem_cons, List.not_mem_nil, or_false] at hN
    rcases hN with rfl | rfl | rfl | rfl | rfl <;> simp [and_fieldMask_eq_zero_iff]
  · simp [hH, and_fieldMask_eq_zero_iff]
  · simp only [List.mem_cons, List.not_mem_nil, or_false] at hB
    rcases hB with rfl | rfl <;> simp [and_fieldMask_eq_zero_iff]
  · simp [hO, and_fieldMask_eq_zero_iff]
  · simp [hOB, and_fieldMask_eq_zero_iff]
  · simp [hN, hH, hB, hO, hOB]

/-! ## The rows of the opcode map -/

/-- R65's table, read by field: a defined row compares the opcode and the must-be-zero bits, and its match has the
latter zero. -/
theorem mask_eq_of_mem_definedRows : ∀ r ∈ opcodeMap.take 13,
    r.mask = fieldMask 28 4 ||| mustBeZeroMask (opcField r.matchBits) ∧
    r.matchBits &&& mustBeZeroMask (opcField r.matchBits) = 0#32 ∧ r.matchBits &&& r.mask = r.matchBits := by
  decide

/-- Every opcode that R66 does not reserve has a defined row. -/
theorem exists_definedRow : ∀ opc : BitVec 4, ¬ (opc = 0x0#4 ∨ opc = 0xE#4 ∨ opc = 0xF#4) →
    ∃ r ∈ opcodeMap.take 13, opc = opcField r.matchBits := by
  decide

/-- Every opcode that R66 reserves has a row among the last three. -/
theorem exists_reservedRow : ∀ opc : BitVec 4, opc = 0x0#4 ∨ opc = 0xE#4 ∨ opc = 0xF#4 →
    ∃ r ∈ opcodeMap.drop 13, opc = opcField r.matchBits := by
  decide

/-- A defined row selects the words of its opcode whose must-be-zero bits are all zero (R67). -/
theorem rowSelects_iff_zeroFieldsClear (hr : r ∈ opcodeMap.take 13) (h : opcField w = opcField r.matchBits) :
    rowSelects w r = true ↔ zeroFieldsClear w := by
  obtain ⟨hmask, hzero, hmatch⟩ := mask_eq_of_mem_definedRows r hr
  calc rowSelects w r = true
      ↔ w &&& r.mask = r.matchBits &&& r.mask := by rw [rowSelects, beq_iff_eq, hmatch]
    _ ↔ opcField w = opcField r.matchBits ∧ w &&& mustBeZeroMask (opcField r.matchBits) = 0#32 := by
        rw [hmask, and_or_eq_iff, and_fieldMask_eq_iff, hzero]
        rfl
    _ ↔ zeroFieldsClear w := by rw [zeroFieldsClear_iff_and_mustBeZeroMask, ← h, and_iff_right rfl]

/-- A defined row reads a legal command from every word. -/
theorem wellFormed_read_of_mem_definedRows (hr : r ∈ opcodeMap.take 13) (w : Word) :
    (r.read w).WellFormed = true := by
  simp only [opcodeMap, List.take_succ_cons, List.take_zero, List.mem_cons, List.not_mem_nil, or_false] at hr
  rcases hr with rfl | rfl | rfl | rfl | rfl | rfl | rfl | rfl | rfl | rfl | rfl | rfl | rfl <;> rfl

/-- A reserved row reads no legal command from any word (R66). -/
theorem not_wellFormed_read_of_mem_reservedRows (hr : r ∈ opcodeMap.drop 13) (w : Word) :
    (r.read w).WellFormed = false := by
  simp only [opcodeMap, List.drop_succ_cons, List.drop_zero, List.mem_cons, List.not_mem_nil, or_false] at hr
  rcases hr with rfl | rfl | rfl <;> rfl

/-! ## Illegal words -/

/-- A word is legal exactly when its opcode's row selects it and reads a legal command from it (R68). -/
theorem isIllegalWord_of_opcField (hr : r ∈ opcodeMap) (h : opcField w = opcField r.matchBits) :
    isIllegalWord w = !(rowSelects w r && (r.read w).WellFormed) := by
  rw [isIllegalWord, decode_of_opcField hr h]
  cases rowSelects w r <;> rfl

/-- A word of a defined opcode is illegal exactly when its opcode's row does not select it (R67). -/
theorem isIllegalWord_of_mem_definedRows (hr : r ∈ opcodeMap.take 13) (h : opcField w = opcField r.matchBits) :
    isIllegalWord w = !rowSelects w r := by
  rw [isIllegalWord_of_opcField (List.mem_of_mem_take hr) h, wellFormed_read_of_mem_definedRows hr, Bool.and_true]

/-- A word of a reserved opcode decodes to no legal command (R66). -/
theorem isIllegalWord_of_reservedOpcode (h : reservedOpcode w) : isIllegalWord w = true := by
  obtain ⟨r, hr, hopc⟩ := exists_reservedRow (opcField w) h
  rw [isIllegalWord_of_opcField (List.mem_of_mem_drop hr) hopc, not_wellFormed_read_of_mem_reservedRows hr,
    Bool.and_false]
  rfl

/-- R66, R67: the illegal words are those of reserved opcodes and those with a must-be-zero bit set. -/
theorem isIllegalWord_iff (w : Word) : isIllegalWord w = true ↔ reservedOpcode w ∨ ¬ zeroFieldsClear w := by
  by_cases hres : reservedOpcode w
  · simp [hres, isIllegalWord_of_reservedOpcode hres]
  · obtain ⟨r, hr, hopc⟩ := exists_definedRow (opcField w) hres
    simp [hres, isIllegalWord_of_mem_definedRows hr hopc, ← rowSelects_iff_zeroFieldsClear hr hopc]

/-- Only the reserved opcodes are no legal commands, and each raises ILLEGAL (R66). -/
theorem exec_of_not_wellFormed (h : i.WellFormed = false) (s : State) : exec i s = illegalAnswer s := by
  cases i with
  | reserved0 | reservedE | reservedF => rfl
  | _ => simp [Instr.WellFormed] at h

/-- An illegal word raises ILLEGAL, whether it decodes to a reserved opcode or to nothing (R130). -/
theorem execWord_of_isIllegalWord (h : isIllegalWord w = true) (s : State) : execWord w s = illegalAnswer s := by
  cases hd : decode w with
  | ok i =>
    have hi : i.WellFormed = false := by simpa [isIllegalWord, hd] using h
    simp only [execWord, hd, exec_of_not_wellFormed hi]
  | error e =>
    simp only [execWord, hd]
    rfl

/-! ## Operand fields -/

theorem toNat_imm16Field (w : Word) : (imm16Field w).toNat = w.toNat % 2 ^ 16 := by
  simp [imm16Field]

theorem toNat_imm8Field (w : Word) : (imm8Field w).toNat = w.toNat % 2 ^ 8 := by
  simp [imm8Field]

theorem toNat_imm24Field (w : Word) : (imm24Field w).toNat = w.toNat % 2 ^ 24 := by
  simp [imm24Field]

theorem toNat_offField (w : Word) : (offField w).toNat = w.toNat / 2 ^ 12 % 2 ^ 12 := toNat_extractLsb'_eq w 12 12

theorem toNat_cntField (w : Word) : (cntField w).toNat = w.toNat % 2 ^ 12 := by
  simp [cntField]

/-- Every operand of the command is the field of the word in R63's place. -/
def OperandsFrom (w : Word) : Instr → Prop
  | .crcLoad v => v = imm16Field w
  | .crcByte b => b = imm8Field w
  | .crcBuf off cnt => off = offField w ∧ cnt = cntField w
  | .pktRdb off => off = offField w
  | .pktWrb off b => off = offField w ∧ b = imm8Field w
  | .setSrc v => v = imm24Field w
  | .setDst v => v = imm24Field w
  | .setLen n => n = imm8Field w
  | .reserved0 low => low = lowField w
  | .reservedE low => low = lowField w
  | .reservedF low => low = lowField w
  | .crcInit | .crcRead | .getSrc | .getDst | .getPlen => True

/-- Every row of the map takes its operands from the fields of R63. -/
theorem operandsFrom_read (hr : r ∈ opcodeMap) (w : Word) : OperandsFrom w (r.read w) := by
  simp only [opcodeMap, List.mem_cons, List.not_mem_nil, or_false] at hr
  rcases hr with rfl | rfl | rfl | rfl | rfl | rfl | rfl | rfl | rfl | rfl | rfl | rfl | rfl | rfl | rfl | rfl <;>
    simp [OperandsFrom]

/-- A decoded command's operands are the fields of its word (R63). -/
theorem operandsFrom_of_decode (h : decode w = .ok i) : OperandsFrom w i := by
  obtain ⟨r, hr, -, rfl⟩ := exists_row_of_decode h
  exact operandsFrom_read hr w

/-! ## The obligations -/

/-- Settles O8, from the rows' masks read as the `0` fields of R63. -/
theorem illegalWordsAreExactlyTheReservedOnes : Obligations.IllegalWordsAreExactlyTheReservedOnes := by
  have hanswer (w : Word) (s : State) (h : reservedOpcode w ∨ ¬ zeroFieldsClear w) :
      execWord w s = illegalAnswer s :=
    execWord_of_isIllegalWord ((isIllegalWord_iff w).2 h) s
  exact ⟨isIllegalWord_iff, hanswer, fun s => hanswer _ s (.inl (.inl rfl))⟩

/-- Settles O10, from the fields that the rows of the opcode map read. -/
theorem operandsAreUnsignedBitFields : Obligations.OperandsAreUnsignedBitFields := by
  refine ⟨fun w v h => ?_, fun w b h => ?_, fun w off cnt h => ?_, fun w off h => ?_, fun w off b h => ?_,
    fun w v h => ?_, fun w v h => ?_, fun w n h => ?_⟩
  · obtain rfl := operandsFrom_of_decode h
    exact toNat_imm16Field w
  · obtain rfl := operandsFrom_of_decode h
    exact toNat_imm8Field w
  · obtain ⟨rfl, rfl⟩ := operandsFrom_of_decode h
    exact ⟨toNat_offField w, toNat_cntField w⟩
  · obtain rfl := operandsFrom_of_decode h
    exact toNat_offField w
  · obtain ⟨rfl, rfl⟩ := operandsFrom_of_decode h
    exact ⟨toNat_offField w, toNat_imm8Field w⟩
  · obtain rfl := operandsFrom_of_decode h
    exact toNat_imm24Field w
  · obtain rfl := operandsFrom_of_decode h
    exact toNat_imm24Field w
  · obtain rfl := operandsFrom_of_decode h
    exact toNat_imm8Field w

/-- Settles O11: no reserved command is legal, and no word of a reserved opcode is. -/
theorem reservedOpcodesAnswerIllegal : Obligations.ReservedOpcodesAnswerIllegal := fun s _ =>
  ⟨exec_of_not_wellFormed rfl s, exec_of_not_wellFormed rfl s, exec_of_not_wellFormed rfl s,
    fun _ h => execWord_of_isIllegalWord (isIllegalWord_of_reservedOpcode h) s⟩

/-- Settles O58: R73's expansions are the model's own definition of each pseudo-instruction. -/
theorem pseudoInstructionsExpand : Obligations.PseudoInstructionsExpand :=
  ⟨fun _ => rfl, fun _ _ _ => rfl, fun _ _ => rfl, fun _ => ⟨rfl, rfl, rfl⟩, rfl, rfl, rfl, rfl, fun _ _ => rfl⟩

end Sys2Proof.Proofs
end

section
/-! PROOFS. The CRC arithmetic as polynomials over GF(2): each pass of R80's loop multiplies by x modulo
G(x) = x^16 + CRC_POLY(x) (spec/40_crc.md R80). -/

namespace Sys2Proof.Proofs

open Sys2Proof.Machine Sys2Proof.Safety
open Polynomial (X)

/-! ## The passes of the loop -/

/-- `n` passes are one pass iterated. -/
theorem crcShifts_eq_iterate (poly : Crc16) (n : Nat) (a : Crc16) :
    crcShifts poly n a = (crcShift poly)^[n] a := by
  induction n generalizing a with
  | zero => rfl
  | succ n ih => rw [crcShifts, ih, Function.iterate_succ_apply]

/-- From a zero accumulator no pass of R80's loop adds the polynomial (R85's corner case). -/
theorem crcShifts_zero (poly : Crc16) (n : Nat) : crcShifts poly n 0#16 = 0#16 := by
  induction n with
  | zero => rfl
  | succ n ih => exact ih

/-! ## Bit vectors as polynomials -/

variable {n : Nat} {p q g pa pb : Polynomial (ZMod 2)}

/-- A bit vector stands for one polynomial. -/
theorem isPolyOf_unique {v : BitVec n} (hp : IsPolyOf p v) (hq : IsPolyOf q v) : p = q :=
  Polynomial.ext fun i => (hp i).trans (hq i).symm

/-- An `n`-bit vector stands for a polynomial of degree below `n`. -/
theorem degree_lt_of_isPolyOf {v : BitVec n} (hp : IsPolyOf p v) : p.degree < n :=
  (Polynomial.degree_lt_iff_coeff_zero p n).2 fun i hi => by simp [hp i, BitVec.getLsbD_of_ge v i hi]

/-- Addition over GF(2) is XOR (R80). -/
theorem isPolyOf_xor {v w : BitVec n} (hp : IsPolyOf p v) (hq : IsPolyOf q w) : IsPolyOf (p + q) (v ^^^ w) :=
  fun i => by
    rw [Polynomial.coeff_add, hp i, hq i, BitVec.getLsbD_xor]
    cases v.getLsbD i <;> cases w.getLsbD i <;> decide

/-- Multiplying by x is a shift left by one, but for the bit that the shift drops. -/
theorem isPolyOf_shiftLeft_one {a : Crc16} (hp : IsPolyOf p a) :
    IsPolyOf (p * X + if a.getLsbD 15 then X ^ 16 else 0) (a <<< 1) := fun i => by
  rw [Polynomial.coeff_add, BitVec.getLsbD_shiftLeft]
  rcases i with _ | i
  · cases a.getLsbD 15 <;> simp
  · rw [Polynomial.coeff_mul_X, hp i]
    rcases lt_trichotomy i 15 with hi | rfl | hi
    · have hi' : i + 1 < 16 := by omega
      cases a.getLsbD 15 <;> simp [Polynomial.coeff_X_pow, hi.ne, hi']
    · cases a.getLsbD 15
      · simp
      · simp [CharTwo.add_self_eq_zero]
    · cases a.getLsbD 15 <;>
        simp [Polynomial.coeff_X_pow, hi.ne', BitVec.getLsbD_of_ge a i hi]

/-- A byte at bits 15:8 of an accumulator stands for its polynomial times x^8. -/
theorem isPolyOf_byte_shiftLeft_eight {b : Byte} (hp : IsPolyOf p b) :
    IsPolyOf (p * X ^ 8) (b.setWidth 16 <<< 8) := fun i => by
  rw [Polynomial.coeff_mul_X_pow', BitVec.getLsbD_shiftLeft, BitVec.getLsbD_setWidth]
  by_cases hi : 8 ≤ i
  · by_cases hlt : i < 16
    · have hlt' : i - 8 < 16 := by omega
      simp [hi, hlt, hlt', hp (i - 8)]
    · simp [hi, hlt, hp (i - 8), BitVec.getLsbD_of_ge b (i - 8) (by omega)]
  · simp [hi]

/-! ## Remainders modulo G(x) -/

section
variable {poly : Crc16} (hg : IsPolyOf g poly)
include hg

/-- G(x) = x^16 + CRC_POLY(x) has leading coefficient 1, whatever CRC_POLY is. -/
theorem monic_generator : (X ^ 16 + g).Monic := Polynomial.monic_X_pow_add (degree_lt_of_isPolyOf hg)

/-- A 16-bit value that differs from `f` by a multiple of G(x) is the remainder of `f`. -/
theorem modByMonic_eq_of_isPolyOf {r f : Polynomial (ZMod 2)} {v : Crc16} (hr : IsPolyOf r v)
    (h : X ^ 16 + g ∣ f - r) : f %ₘ (X ^ 16 + g) = r := by
  have hlt : g.degree < (X ^ 16 : Polynomial (ZMod 2)).degree := by
    rw [Polynomial.degree_X_pow]
    exact degree_lt_of_isPolyOf hg
  have hdeg : r.degree < (X ^ 16 + g).degree := by
    rw [Polynomial.degree_add_eq_left_of_degree_lt hlt, Polynomial.degree_X_pow]
    exact degree_lt_of_isPolyOf hr
  rw [Polynomial.modByMonic_eq_of_dvd_sub (monic_generator hg) h,
    (Polynomial.modByMonic_eq_self_iff (monic_generator hg)).2 hdeg]

/-- One pass of R80's loop multiplies by x modulo G(x): where bit 15 was set, adding CRC_POLY takes G(x) away. -/
theorem isPolyOf_crcShift {a : Crc16} (hp : IsPolyOf p a) :
    IsPolyOf (p * X %ₘ (X ^ 16 + g)) (crcShift poly a) := by
  have hshift := isPolyOf_shiftLeft_one hp
  unfold crcShift
  split
  · rename_i hbit
    rw [if_pos hbit] at hshift
    have hsum := isPolyOf_xor hshift hg
    have hdvd : X ^ 16 + g ∣ p * X - (p * X + X ^ 16 + g) := ⟨-1, by ring⟩
    rwa [modByMonic_eq_of_isPolyOf hg hsum hdvd]
  · rename_i hbit
    rw [if_neg hbit, add_zero] at hshift
    rwa [modByMonic_eq_of_isPolyOf hg hshift (by simp)]

/-- `k` passes of R80's loop multiply by x^k modulo G(x). -/
theorem isPolyOf_crcShifts (k : Nat) {a : Crc16} (hp : IsPolyOf p a) :
    IsPolyOf (p * X ^ k %ₘ (X ^ 16 + g)) (crcShifts poly k a) := by
  induction k generalizing p a with
  | zero => rwa [pow_zero, mul_one, modByMonic_eq_of_isPolyOf hg hp (by simp)]
  | succ k ih =>
    have hmod : p * X ^ (k + 1) %ₘ (X ^ 16 + g) = (p * X %ₘ (X ^ 16 + g)) * X ^ k %ₘ (X ^ 16 + g) := by
      refine Polynomial.modByMonic_eq_of_dvd_sub (monic_generator hg) ?_
      rw [pow_succ' X k, ← mul_assoc, ← sub_mul]
      exact ((dvd_sub_comm).1 (Polynomial.dvd_modByMonic_sub ..)).mul_right _
    rw [hmod]
    exact ih (isPolyOf_crcShift hg hp)

/-- R80's polynomial form: crc_step stands for the remainder of acc(x)·x^8 + b(x)·x^16 modulo G(x). -/
theorem isPolyOf_crcStep {acc : Crc16} {b : Byte} (ha : IsPolyOf pa acc) (hb : IsPolyOf pb b) :
    IsPolyOf ((pa * X ^ 8 + pb * X ^ 16) %ₘ (X ^ 16 + g)) (crcStep poly acc b) := by
  rw [show pa * X ^ 8 + pb * X ^ 16 = (pa + pb * X ^ 8) * X ^ 8 by ring]
  exact isPolyOf_crcShifts hg 8 (isPolyOf_xor ha (isPolyOf_byte_shiftLeft_eight hb))

end

/-- Settles O41: the loop is the model's own pass iterated, and the remainder follows pass by pass. -/
theorem crcStepIsThePolynomialRemainder : Obligations.CrcStepIsThePolynomialRemainder := fun poly _ _ =>
  ⟨crcShifts_eq_iterate poly 8 _, fun _ _ _ _ hg ha hb hr => isPolyOf_unique hr (isPolyOf_crcStep hg ha hb)⟩

end Sys2Proof.Proofs
end

section
/-! PROOFS. The commands of the CRC unit: their words, their effects and their faults (spec/40_crc.md R83 to R90). -/

namespace Sys2Proof.Proofs

open Sys2Proof.Machine Sys2Proof.Safety

variable {s s' t : State} {w : Word} {off cnt : Field12}

/-! ## Words built from a match and operands -/

/-- A value that stands at bit `start` of a word has no other bit. -/
theorem and_fieldMask_of_placed {n : Nat} (x : BitVec n) (start : Nat) :
    (x.setWidth 32 <<< start) &&& fieldMask start n = x.setWidth 32 <<< start := by
  refine BitVec.eq_of_getLsbD_eq fun k hk => ?_
  rw [BitVec.getLsbD_and, getLsbD_fieldMask hk, BitVec.getLsbD_shiftLeft, BitVec.getLsbD_setWidth]
  by_cases hin : start ≤ k ∧ k - start < n
  · simp [hin]
  · by_cases hle : start ≤ k
    · have : n ≤ k - start := by omega
      simp [BitVec.getLsbD_of_ge x _ this]
    · simp [Nat.lt_of_not_le hle]

/-- A value that stands at bit `start` of a word leaves every place outside its field zero. -/
theorem placed_and_eq_zero {n : Nat} (x : BitVec n) (start : Nat) {mask : Word}
    (h : fieldMask start n &&& mask = 0#32) : (x.setWidth 32 <<< start) &&& mask = 0#32 := by
  rw [← and_fieldMask_of_placed, BitVec.and_assoc, h, BitVec.and_zero]

/-- A field that holds a value reads as that value. -/
theorem extractLsb'_placed {n start : Nat} (x : BitVec n) (h : start + n ≤ 32) :
    (x.setWidth 32 <<< start).extractLsb' start n = x := by
  refine BitVec.eq_of_getLsbD_eq fun k hk => ?_
  have hk' : start + k < 32 ∧ k < 32 := by omega
  simp [hk, hk']

/-- A field beside the place of a value reads as zero. -/
theorem extractLsb'_placed_eq_zero {n start start' len : Nat} (x : BitVec n)
    (h : fieldMask start n &&& fieldMask start' len = 0#32) :
    (x.setWidth 32 <<< start).extractLsb' start' len = 0#len :=
  (and_fieldMask_eq_zero_iff ..).1 (placed_and_eq_zero x start h)

/-- A word that is a defined row's match with operand bits beside its mask decodes to that row's command (R65). -/
theorem decode_matchBits_or {r : OpcodeRow} (hr : r ∈ opcodeMap.take 13) {v : Word} (hv : v &&& r.mask = 0#32) :
    decode (r.matchBits ||| v) = .ok (r.read (r.matchBits ||| v)) := by
  obtain ⟨-, -, hmatch⟩ := mask_eq_of_mem_definedRows r hr
  refine decode_of_rowSelects (List.mem_of_mem_take hr) ?_
  rw [rowSelects, BitVec.and_or_distrib_right, hmatch, hv, BitVec.or_zero, beq_self_eq_true]

/-- The match of a defined row is zero in every field beside its mask. -/
theorem extractLsb'_matchBits_eq_zero {r : OpcodeRow} (hr : r ∈ opcodeMap.take 13) {start len : Nat}
    (h : fieldMask start len &&& r.mask = 0#32) : r.matchBits.extractLsb' start len = 0#len := by
  obtain ⟨-, -, hmatch⟩ := mask_eq_of_mem_definedRows r hr
  rw [← and_fieldMask_eq_zero_iff, ← hmatch, BitVec.and_assoc, BitVec.and_comm r.mask, h, BitVec.and_zero]

/-- A row that reads one operand field beside its mask gives back the operand placed there (R63, R65). -/
theorem decode_matchBits_or_operand {n start : Nat} {r : OpcodeRow} {mk : BitVec n → Instr}
    (hr : r ∈ opcodeMap.take 13) (hread : ∀ w, r.read w = mk (w.extractLsb' start n))
    (hmask : fieldMask start n &&& r.mask = 0#32) (hle : start + n ≤ 32) (x : BitVec n) :
    decode (r.matchBits ||| x.setWidth 32 <<< start) = .ok (mk x) := by
  rw [decode_matchBits_or hr (placed_and_eq_zero x start hmask), hread, BitVec.extractLsb'_or,
    extractLsb'_matchBits_eq_zero hr hmask, extractLsb'_placed x hle, BitVec.zero_or]

/-- A word of the opcode with a must-be-zero bit set raises ILLEGAL in every state (R62, R63, R67). -/
theorem execWord_of_mustBeZero_bit {opc : BitVec 4} {mask : Word} (hmask : mustBeZeroMask opc = mask)
    (h : opcField w = opc) (hbit : w &&& mask ≠ 0#32) (s : State) : execWord w s = illegalAnswer s := by
  refine execWord_of_isIllegalWord ((isIllegalWord_iff w).2 (.inr fun hclear => hbit ?_)) s
  rw [← hmask, ← h]
  exact (zeroFieldsClear_iff_and_mustBeZeroMask w).1 hclear

/-! ## The words of the commands with operands (R65) -/

theorem decode_crcLoad_word (imm16 : Crc16) :
    decode (0x20000000#32 ||| imm16.setWidth 32) = .ok (.crcLoad imm16) := by
  rw [← BitVec.shiftLeft_zero (imm16.setWidth 32)]
  exact decode_matchBits_or_operand (r := (opcodeMap.take 13)[1]) (mk := .crcLoad) (List.getElem_mem _)
    (fun _ => rfl) (by decide) (by decide) imm16

theorem decode_crcByte_word (imm8 : Byte) :
    decode (0x30000000#32 ||| imm8.setWidth 32) = .ok (.crcByte imm8) := by
  rw [← BitVec.shiftLeft_zero (imm8.setWidth 32)]
  exact decode_matchBits_or_operand (r := (opcodeMap.take 13)[2]) (mk := .crcByte) (List.getElem_mem _)
    (fun _ => rfl) (by decide) (by decide) imm8

theorem decode_crcBuf_word (off cnt : Field12) :
    decode (0x40000000#32 ||| (off.setWidth 32 <<< 12) ||| cnt.setWidth 32) = .ok (.crcBuf off cnt) := by
  rw [← BitVec.shiftLeft_zero (cnt.setWidth 32), BitVec.or_assoc]
  have hv : ((off.setWidth 32 <<< 12) ||| (cnt.setWidth 32 <<< 0)) &&& 0xFF000000#32 = 0#32 := by
    rw [BitVec.and_or_distrib_right, placed_and_eq_zero off 12 (by decide), placed_and_eq_zero cnt 0 (by decide),
      BitVec.or_zero]
  refine (decode_matchBits_or (r := (opcodeMap.take 13)[3]) (List.getElem_mem _) hv).trans
    (congrArg Except.ok (congrArg₂ Instr.crcBuf ?_ ?_))
  · rw [offField, BitVec.extractLsb'_or, BitVec.extractLsb'_or, extractLsb'_placed off (by decide),
      extractLsb'_placed_eq_zero cnt (by decide), BitVec.or_zero]
    exact BitVec.zero_or
  · rw [cntField, BitVec.extractLsb'_or, BitVec.extractLsb'_or, extractLsb'_placed cnt (by decide),
      extractLsb'_placed_eq_zero off (by decide), BitVec.zero_or]
    exact BitVec.zero_or

/-! ## Effects -/

/-- Commands go on from the state that the first of them leaves (R50). -/
theorem execAll_cons_of_next {i : Instr} {is : List Instr} (h : exec i s = .next t) :
    execAll (i :: is) s = execAll is t := by
  rw [execAll, h]

/-- A command that completes answers with its value and the status OK (R71). -/
theorem complete_eq_answered (d : Data24) (s : State) : complete d s = .next (answered (d.setWidth 32) s) := by
  rw [complete, respond, responseWord_ok, answered]

theorem exec_crcInit (s : State) :
    exec .crcInit s = .next (answered 0x00000000#32 { s with acc := s.params.crc16Init }) :=
  complete_eq_answered ..

theorem exec_crcLoad (imm16 : Crc16) (s : State) :
    exec (.crcLoad imm16) s = .next (answered 0x00000000#32 { s with acc := imm16 }) :=
  complete_eq_answered ..

theorem exec_crcByte (imm8 : Byte) (s : State) : exec (.crcByte imm8) s =
    .next (answered 0x00000000#32 { s with acc := crcStep s.params.crcPoly s.acc imm8 }) :=
  complete_eq_answered ..

theorem exec_crcRead (s : State) : exec .crcRead s = .next (answered (s.acc.setWidth 32) s) := by
  rw [exec, execCrcRead, complete_eq_answered, zextCrc, BitVec.setWidth_setWidth (by decide)]

/-- CRC_BUF in range absorbs what its range reads as; out of range it changes nothing (R86, R131). -/
theorem exec_crcBuf (off cnt : Field12) (s : State) :
    exec (.crcBuf off cnt) s =
      if off.toNat + cnt.toNat ≤ s.params.pktCap then
        afterRead (memReadRange s off.toNat cnt.toNat) fun d =>
          .next (answered 0x00000000#32 { s with acc := crcFold s.params.crcPoly s.acc d })
      else rangeAnswer s := by
  simp only [exec, execCrcBuf, spanInRange_iff, complete_eq_answered]
  rfl

/-- CRC_BUF over a range that holds the bytes `d` absorbs them in order (R86). -/
theorem exec_crcBuf_of_holdsBytes {d : List Byte} (hin : off.toNat + cnt.toNat ≤ s.params.pktCap)
    (hlen : d.length = cnt.toNat) (hd : HoldsBytes s off.toNat d) :
    exec (.crcBuf off cnt) s = .next (answered 0x00000000#32 { s with acc := crcFold s.params.crcPoly s.acc d }) := by
  rw [exec_crcBuf, if_pos hin, memReadRange_eq_ok.2 ⟨hlen, hd⟩, afterRead_ok]

/-- A range of no bytes absorbs nothing, at PKT_CAP too, whatever the buffer holds (R89). -/
theorem exec_crcBuf_zero (hin : off.toNat ≤ s.params.pktCap) :
    exec (.crcBuf off 0#12) s = .next (answered 0x00000000#32 s) :=
  exec_crcBuf_of_holdsBytes (d := []) hin rfl fun _ hk => absurd hk (Nat.not_lt_zero _)

/-! ## What a range read depends on -/

/-- A read depends on the byte at its offset alone. -/
theorem memRead_congr {o : Nat} (h : memLookup s'.pkt o = memLookup s.pkt o) : memRead s' o = memRead s o := by
  rw [memRead, memRead, h]

/-- A range read depends on the bytes of its range alone (R90). -/
theorem memReadRange_congr {o n : Nat} (h : ∀ k < n, memLookup s'.pkt (o + k) = memLookup s.pkt (o + k)) :
    memReadRange s' o n = memReadRange s o n := by
  induction n generalizing o with
  | zero => rfl
  | succ n ih =>
    have hrest : memReadRange s' (o + 1) n = memReadRange s (o + 1) n :=
      ih fun k hk => by simpa [Nat.add_assoc, Nat.add_comm 1] using h (k + 1) (by omega)
    have hfirst : memRead s' o = memRead s o := memRead_congr (h 0 (by omega))
    rw [memReadRange, memReadRange, hfirst, hrest]

/-- A range whose bytes are all written is read whole. -/
theorem exists_memReadRange_eq_ok {o n : Nat} (h : ∀ k < n, memLookup s.pkt (o + k) ≠ none) :
    ∃ d, memReadRange s o n = .ok d := by
  cases hr : memReadRange s o n with
  | ok d => exact ⟨d, rfl⟩
  | error f =>
    obtain ⟨k, hk, -, hnone, -⟩ := memReadRange_eq_error.1 hr
    exact absurd hnone (h k hk)

/-- Two states with the same parameters, the same ACC and the same bytes in the range get the same ACC from CRC_BUF,
in range or out of it (R90). -/
theorem exec_crcBuf_congr (hparams : s'.params = s.params) (hacc : s'.acc = s.acc)
    (hbytes : ∀ k < cnt.toNat, memLookup s'.pkt (off.toNat + k) = memLookup s.pkt (off.toNat + k))
    (h : exec (.crcBuf off cnt) s = .next t) :
    ∃ t', exec (.crcBuf off cnt) s' = .next t' ∧ t'.acc = t.acc := by
  rw [exec_crcBuf] at h ⊢
  rw [hparams, hacc, memReadRange_congr hbytes]
  split at h
  · rename_i hin
    obtain ⟨d, hd, ht⟩ := afterRead_eq_next.1 h
    rw [if_pos hin, hd]
    cases ht
    exact ⟨_, rfl, rfl⟩
  · rename_i hout
    rw [if_neg hout]
    cases h
    exact ⟨_, rfl, hacc⟩

/-- CRC_BUF leaves the buffer as it was (R90). -/
theorem pkt_of_exec_crcBuf (h : exec (.crcBuf off cnt) s = .next t) : t.pkt = s.pkt := by
  obtain ⟨r, a, rfl⟩ := exists_answered_of_exec_crcBuf h
  rfl

/-! ## The obligations -/

/-- Settles O12: the row of CRC_INIT has no operand, and its other 28 bits must be zero. -/
theorem crcInitLoadsTheStartValue : Obligations.CrcInitLoadsTheStartValue :=
  ⟨rfl, exec_crcInit, fun _ s h hbit => execWord_of_mustBeZero_bit (by decide) h hbit s⟩

/-- Settles O13, from the row's one operand field and its must-be-zero bits. -/
theorem crcLoadLoadsTheImmediate : Obligations.CrcLoadLoadsTheImmediate :=
  ⟨decode_crcLoad_word, fun s imm16 => exec_crcLoad imm16 s,
    fun _ s h hbit => execWord_of_mustBeZero_bit (by decide) h hbit s⟩

/-- Settles O14; the corner case is R80's loop run on a zero accumulator, where no pass adds the polynomial. -/
theorem crcByteAbsorbsOneByte : Obligations.CrcByteAbsorbsOneByte :=
  ⟨decode_crcByte_word, fun s imm8 => exec_crcByte imm8 s, fun poly => crcShifts_zero poly 8,
    fun _ s h hbit => execWord_of_mustBeZero_bit (by decide) h hbit s⟩

/-- Settles O15, from the row's two operand fields and what a range read gives. -/
theorem crcBufAbsorbsTheRange : Obligations.CrcBufAbsorbsTheRange := by
  refine ⟨decode_crcBuf_word, fun _ _ _ _ => exec_crcBuf_of_holdsBytes, fun s off cnt hout => ?_,
    fun _ s h hbit => execWord_of_mustBeZero_bit (by decide) h hbit s⟩
  rw [exec_crcBuf, if_neg (Nat.not_le.2 hout)]

/-- Settles O16: the zero-extended accumulator is the whole response word. -/
theorem crcReadReturnsTheAccumulator : Obligations.CrcReadReturnsTheAccumulator :=
  ⟨rfl, exec_crcRead, fun _ s h hbit => execWord_of_mustBeZero_bit (by decide) h hbit s⟩

/-- Settles O45: the empty fold is its start value, and CRC_BUF over no bytes leaves ACC. -/
theorem zeroLengthInputReturnsInit : Obligations.ZeroLengthInputReturnsInit := by
  refine ⟨fun _ _ => rfl, fun s init off hin => ?_⟩
  rw [execAll_cons_of_next (exec_crcLoad init s),
    execAll_cons_of_next (exec_crcBuf_zero (s := answered 0#32 { s with acc := init }) hin),
    execAll_cons_of_next (exec_crcRead _), execAll]
  simp [answered]

/-- Settles O46: a range read depends on its own bytes alone, and succeeds where they are all written. -/
theorem crcBufDependsOnItsRangeOnly : Obligations.CrcBufDependsOnItsRangeOnly := by
  refine ⟨fun s s' t off cnt hparams hacc hbytes h => ?_, fun s off cnt hin hwritten => ?_, fun s v b i hi => ?_⟩
  · obtain ⟨t', h', hacc'⟩ := exec_crcBuf_congr hparams hacc hbytes h
    exact ⟨pkt_of_exec_crcBuf h, t', h', hacc', pkt_of_exec_crcBuf h'⟩
  · obtain ⟨d, hd⟩ := exists_memReadRange_eq_ok hwritten
    obtain ⟨hlen, hholds⟩ := memReadRange_eq_ok.1 hd
    exact ⟨_, exec_crcBuf_of_holdsBytes hin hlen hholds⟩
  · simp only [List.mem_cons, List.not_mem_nil, or_false] at hi
    rcases hi with rfl | rfl | rfl | rfl
    · exact ⟨_, 0#24, exec_crcInit s⟩
    · exact ⟨_, 0#24, exec_crcLoad v s⟩
    · exact ⟨_, 0#24, exec_crcByte b s⟩
    · exact ⟨s.acc, zextCrc s.acc, complete_eq_answered ..⟩

end Sys2Proof.Proofs
end

section
/-! PROOFS. The commands of the field codec unit: their words, their effects and their faults
(spec/41_packet_codec.md R100 to R107). -/

namespace Sys2Proof.Proofs

open Sys2Proof.Machine Sys2Proof.Safety

variable {s : State} {off : Field12}

/-! ## The words of the commands with operands (R65) -/

/-- A row that reads two operand fields, apart from each other and beside its mask, gives back the operands placed
there (R63, R65). -/
theorem decode_matchBits_or_operands {m n start start' : Nat} {r : OpcodeRow} {mk : BitVec m → BitVec n → Instr}
    (hr : r ∈ opcodeMap.take 13)
    (hread : ∀ w, r.read w = mk (w.extractLsb' start m) (w.extractLsb' start' n))
    (hmask : fieldMask start m &&& r.mask = 0#32) (hmask' : fieldMask start' n &&& r.mask = 0#32)
    (hapart : fieldMask start m &&& fieldMask start' n = 0#32) (hle : start + m ≤ 32) (hle' : start' + n ≤ 32)
    (x : BitVec m) (y : BitVec n) :
    decode (r.matchBits ||| x.setWidth 32 <<< start ||| y.setWidth 32 <<< start') = .ok (mk x y) := by
  have hapart' : fieldMask start' n &&& fieldMask start m = 0#32 := by rw [BitVec.and_comm, hapart]
  have hv : (x.setWidth 32 <<< start ||| y.setWidth 32 <<< start') &&& r.mask = 0#32 := by
    rw [BitVec.and_or_distrib_right, placed_and_eq_zero x start hmask, placed_and_eq_zero y start' hmask',
      BitVec.or_zero]
  rw [BitVec.or_assoc, decode_matchBits_or hr hv, hread]
  simp only [BitVec.extractLsb'_or, extractLsb'_matchBits_eq_zero hr hmask, extractLsb'_matchBits_eq_zero hr hmask',
    extractLsb'_placed x hle, extractLsb'_placed y hle', extractLsb'_placed_eq_zero x hapart,
    extractLsb'_placed_eq_zero y hapart', BitVec.zero_or, BitVec.or_zero]

theorem decode_pktRdb_word (off : Field12) :
    decode (0x60000000#32 ||| (off.setWidth 32 <<< 12)) = .ok (.pktRdb off) :=
  decode_matchBits_or_operand (r := (opcodeMap.take 13)[5]) (mk := .pktRdb) (List.getElem_mem _)
    (fun _ => rfl) (by decide) (by decide) off

theorem decode_pktWrb_word (off : Field12) (imm8 : Byte) :
    decode (0x70000000#32 ||| (off.setWidth 32 <<< 12) ||| imm8.setWidth 32) = .ok (.pktWrb off imm8) := by
  rw [← BitVec.shiftLeft_zero (imm8.setWidth 32)]
  exact decode_matchBits_or_operands (r := (opcodeMap.take 13)[6]) (mk := .pktWrb) (List.getElem_mem _)
    (fun _ => rfl) (by decide) (by decide) (by decide) (by decide) (by decide) off imm8

theorem decode_setSrc_word (v : Data24) : decode (0x90000000#32 ||| v.setWidth 32) = .ok (.setSrc v) := by
  rw [← BitVec.shiftLeft_zero (v.setWidth 32)]
  exact decode_matchBits_or_operand (r := (opcodeMap.take 13)[8]) (mk := .setSrc) (List.getElem_mem _)
    (fun _ => rfl) (by decide) (by decide) v

theorem decode_setDst_word (v : Data24) : decode (0xB0000000#32 ||| v.setWidth 32) = .ok (.setDst v) := by
  rw [← BitVec.shiftLeft_zero (v.setWidth 32)]
  exact decode_matchBits_or_operand (r := (opcodeMap.take 13)[10]) (mk := .setDst) (List.getElem_mem _)
    (fun _ => rfl) (by decide) (by decide) v

theorem decode_setLen_word (n : Byte) : decode (0xD0000000#32 ||| n.setWidth 32) = .ok (.setLen n) := by
  rw [← BitVec.shiftLeft_zero (n.setWidth 32)]
  exact decode_matchBits_or_operand (r := (opcodeMap.take 13)[12]) (mk := .setLen) (List.getElem_mem _)
    (fun _ => rfl) (by decide) (by decide) n

/-! ## Raw bytes -/

/-- PKT_RDB in range answers with the byte it reads; out of range it changes nothing (R100, R131). -/
theorem exec_pktRdb (off : Field12) (s : State) :
    exec (.pktRdb off) s =
      if off.toNat < s.params.pktCap then
        afterRead (memRead s off.toNat) fun b => .next (answered (b.setWidth 32) s)
      else rangeAnswer s := by
  have hzext (b : Byte) : (zextByte b).setWidth 32 = b.setWidth 32 := BitVec.setWidth_setWidth (by decide)
  simp only [exec, execPktRdb, offsetInRange_iff, complete_eq_answered, hzext]
  rfl

/-- PKT_RDB in range answers with the byte that stands at its offset (R100). -/
theorem exec_pktRdb_of_memLookup {b : Byte} (hin : off.toNat < s.params.pktCap)
    (hb : memLookup s.pkt off.toNat = some b) :
    exec (.pktRdb off) s = .next (answered (b.setWidth 32) s) := by
  rw [exec_pktRdb, if_pos hin, memRead_eq_ok.2 hb, afterRead_ok]

/-! ## The address fields: GET_SRC and GET_DST, SET_SRC and SET_DST (R42) -/

/-- Three bytes, most significant first, are the zero-extended number with those digits in base 256 (R42). -/
theorem setWidth_append_bytes (hi mid lo : Byte) :
    (hi ++ mid ++ lo).setWidth 32 = BitVec.ofNat 32 (hi.toNat * 2 ^ 16 + mid.toNat * 2 ^ 8 + lo.toNat) := by
  have hnum : (hi ++ mid ++ lo).toNat = hi.toNat * 2 ^ 16 + mid.toNat * 2 ^ 8 + lo.toNat := by
    rw [toNat_append_eq_add, toNat_append_eq_add]
    omega
  rw [← hnum, BitVec.ofNat_toNat]

/-- A command that answers with a 24-bit field gives the big-endian number of the field's bytes (R102, R104). -/
theorem afterRead_readField24_of_written {base : Nat} {hi mid lo : Byte} (h0 : memLookup s.pkt base = some hi)
    (h1 : memLookup s.pkt (base + 1) = some mid) (h2 : memLookup s.pkt (base + 2) = some lo) :
    (afterRead (readField24 s base) fun v => complete v s) =
      .next (answered (BitVec.ofNat 32 (hi.toNat * 2 ^ 16 + mid.toNat * 2 ^ 8 + lo.toNat)) s) := by
  rw [readField24_eq_ok.2 ⟨hi, mid, lo, h0, h1, h2, rfl⟩, afterRead_ok, complete_eq_answered, setWidth_append_bytes]

/-- A 24-bit write puts the most significant byte at the base offset, and the others after it (R42). -/
theorem memLookup_writeField24_msb_first (s : State) (base : Nat) (v : Data24) (o : Nat) :
    memLookup (writeField24 base v s).pkt o =
      if o = base then some (v.extractLsb' 16 8) else if o = base + 1 then some (v.extractLsb' 8 8)
      else if o = base + 2 then some (v.extractLsb' 0 8) else memLookup s.pkt o := by
  rw [memLookup_writeField24]
  by_cases h0 : o = base
  · rw [if_neg (by omega), if_neg (by omega), if_pos h0, if_pos h0]
  · by_cases h1 : o = base + 1
    · rw [if_neg (by omega), if_pos h1, if_neg h0, if_pos h1]
    · rw [if_neg h1, if_neg h0, if_neg h0, if_neg h1]

theorem exec_setSrc (v : Data24) (s : State) :
    exec (.setSrc v) s = .next (answered 0x00000000#32 { s with pkt := (writeField24 4 v s).pkt }) :=
  complete_eq_answered ..

theorem exec_setDst (v : Data24) (s : State) :
    exec (.setDst v) s = .next (answered 0x00000000#32 { s with pkt := (writeField24 7 v s).pkt }) :=
  complete_eq_answered ..

/-! ## The length -/

/-- The payload length lies well within 24 bits, so its two's complement stands for the integer itself (R106). -/
theorem toInt_sextInt_payloadLength (len : Byte) : (sextInt (payloadLength len)).toInt = (len.toNat : Int) - 9 := by
  have hlen : len.toNat < 2 ^ 8 := len.isLt
  have hval : payloadLength len = (len.toNat : Int) - 9 := rfl
  rw [sextInt, BitVec.toInt_ofInt, hval]
  exact Int.bmod_eq_of_le (by omega) (by omega)

/-- GET_PLEN answers with the payload length that the LEN byte stands for (R106). -/
theorem exec_getPlen_of_memLookup {len : Byte} (h : memLookup s.pkt 0 = some len) :
    exec .getPlen s = .next (answered ((sextInt (payloadLength len)).setWidth 32) s) := by
  rw [exec, execGetPlen, offLen, memRead_eq_ok.2 h, afterRead_ok, complete_eq_answered]

/-- The LEN byte of a payload length wraps at 256 (R107). -/
theorem toNat_lenByte (n : Byte) : (lenByte n).toNat = (n.toNat + 9) % 256 := by
  rw [lenByte, lenBias, BitVec.toNat_ofNat, Nat.mod_mod]

theorem exec_setLen (n : Byte) (s : State) :
    exec (.setLen n) s = .next (answered 0x00000000#32 { s with pkt := memStore s.pkt 0 (lenByte n) }) :=
  complete_eq_answered ..

/-! ## The obligations -/

/-- Settles O17, from what a read of one byte gives. -/
theorem pktRdbReturnsTheByte : Obligations.PktRdbReturnsTheByte := by
  refine ⟨decode_pktRdb_word, fun _ _ _ => exec_pktRdb_of_memLookup, fun s off hout => ?_,
    fun _ s h hbit => execWord_of_mustBeZero_bit (by decide) h hbit s⟩
  rw [exec_pktRdb, if_neg (Nat.not_lt.2 hout)]

/-- Settles O18: the new buffer is the old one with one byte stored. -/
theorem pktWrbStoresTheByte : Obligations.PktWrbStoresTheByte := by
  refine ⟨decode_pktWrb_word, fun s off imm8 hin => ⟨memStore s.pkt off.toNat imm8, ?_, fun o => ?_⟩,
    fun s off imm8 hout => ?_, fun _ s h hbit => execWord_of_mustBeZero_bit (by decide) h hbit s⟩
  · rw [exec_pktWrb, if_pos hin, memWrite]
  · exact memLookup_memStore ..
  · rw [exec_pktWrb, if_neg (Nat.not_lt.2 hout)]

/-- Settles O19, from the big-endian read of the field at offset 4. -/
theorem getSrcReadsBigEndian : Obligations.GetSrcReadsBigEndian :=
  ⟨rfl, fun _ _ _ _ => afterRead_readField24_of_written,
    fun _ s h hbit => execWord_of_mustBeZero_bit (by decide) h hbit s⟩

/-- Settles O20, from the big-endian write of the field at offset 4. -/
theorem setSrcWritesBigEndian : Obligations.SetSrcWritesBigEndian :=
  ⟨decode_setSrc_word, fun s v => ⟨_, exec_setSrc v s, memLookup_writeField24_msb_first s 4 v⟩,
    fun _ s h hbit => execWord_of_mustBeZero_bit (by decide) h hbit s⟩

/-- Settles O21, from the big-endian read of the field at offset 7. -/
theorem getDstReadsBigEndian : Obligations.GetDstReadsBigEndian :=
  ⟨rfl, fun _ _ _ _ => afterRead_readField24_of_written,
    fun _ s h hbit => execWord_of_mustBeZero_bit (by decide) h hbit s⟩

/-- Settles O22, from the big-endian write of the field at offset 7. -/
theorem setDstWritesBigEndian : Obligations.SetDstWritesBigEndian :=
  ⟨decode_setDst_word, fun s v => ⟨_, exec_setDst v s, memLookup_writeField24_msb_first s 7 v⟩,
    fun _ s h hbit => execWord_of_mustBeZero_bit (by decide) h hbit s⟩

/-- Settles O23: every payload length from -9 to 246 fits in 24 bits. -/
theorem getPlenReturnsLenMinusNine : Obligations.GetPlenReturnsLenMinusNine :=
  ⟨rfl, fun _ len h => ⟨_, exec_getPlen_of_memLookup h, toInt_sextInt_payloadLength len⟩,
    fun _ s h hbit => execWord_of_mustBeZero_bit (by decide) h hbit s⟩

/-- Settles O24: the new buffer is the old one with the LEN byte stored at offset 0. -/
theorem setLenStoresNPlusNine : Obligations.SetLenStoresNPlusNine :=
  ⟨decode_setLen_word, fun s n => ⟨_, lenByte n, exec_setLen n s, toNat_lenByte n, fun _ => memLookup_memStore ..⟩,
    fun _ s h hbit => execWord_of_mustBeZero_bit (by decide) h hbit s⟩

end Sys2Proof.Proofs
end

section
/-! PROOFS. The faults of the block: which words raise ILLEGAL and RANGE, and what they leave
(spec/60_exceptions.md R130, R131). -/

namespace Sys2Proof.Proofs

open Sys2Proof.Machine Sys2Proof.Safety

variable {s t u : State} {w : Word} {i : Instr}

/-! ## Responses -/

/-- Two answers of one state agree exactly when their words do. -/
@[simp] theorem responses_answered_eq_iff {r r' : Word} :
    (answered r s).responses = s.responses ++ [r'] ↔ r = r' := by
  simp [answered]

/-- The command that leads from `s` to `t` has responded with status OK and some DATA (R71). -/
def RespondsOk (s t : State) : Prop := ∃ d : Data24, t.responses = s.responses ++ [d.setWidth 32]

/-- A response without fault has status OK in its ST field (R71). -/
theorem responseStatus_setWidth (d : Data24) : responseStatus (d.setWidth 32) = 0x0#4 := by
  apply BitVec.eq_of_toNat_eq
  have hd : d.toNat < 2 ^ 24 := d.isLt
  rw [responseStatus, toNat_extractLsb'_eq, BitVec.toNat_setWidth, BitVec.toNat_ofNat]
  omega

/-- The one response of a command that responds OK has status OK. -/
theorem responseStatus_of_respondsOk {r : Word} (hok : RespondsOk s t) (hr : t.responses = s.responses ++ [r]) :
    responseStatus r = 0x0#4 := by
  obtain ⟨d, hd⟩ := hok
  have hword : d.setWidth 32 = r := by simpa [hd] using hr
  rw [← hword, responseStatus_setWidth]

/-- A command that completes responds OK. -/
theorem respondsOk_of_complete {d : Data24} (h : complete d u = .next t) (hu : u.responses = s.responses) :
    RespondsOk s t := by
  obtain rfl := complete_eq_next.1 h
  exact ⟨d, by rw [respond_responses, responseWord_ok, hu]⟩

/-- A command that completes with what it reads responds OK. -/
theorem respondsOk_of_afterRead {α : Type} {r : Except Fault α} {f : α → Data24} {g : α → State}
    (h : afterRead r (fun a => complete (f a) (g a)) = .next t) (hg : ∀ a, (g a).responses = s.responses) :
    RespondsOk s t := by
  obtain ⟨a, -, ha⟩ := afterRead_eq_next.1 h
  exact respondsOk_of_complete ha (hg a)

/-! ## The causes of the faults -/

/-- Only defined commands have a buffer operand. -/
theorem wellFormed_of_outOfRange (h : outOfRange s i) : i.WellFormed = true := by
  cases i with
  | pktRdb | pktWrb | crcBuf => rfl
  | _ => exact h.elim

/-- A word that decodes is illegal exactly when its command is (R68). -/
theorem isIllegalWord_of_decode (hd : decode w = .ok i) : isIllegalWord w = !i.WellFormed := by
  simp only [isIllegalWord, hd]

/-- A word whose buffer operand is out of range is legal. -/
theorem isIllegalWord_eq_false_of_outOfRange (hd : decode w = .ok i) (h : outOfRange s i) :
    isIllegalWord w = false := by
  rw [isIllegalWord_of_decode hd, wellFormed_of_outOfRange h, Bool.not_true]

/-- A command whose buffer operand is out of range raises RANGE (R44, R130). -/
theorem exec_of_outOfRange (h : outOfRange s i) : exec i s = rangeAnswer s := by
  cases i with
  | pktRdb off => rw [exec_pktRdb, if_neg (Nat.not_lt.2 h)]
  | pktWrb off b => rw [exec_pktWrb, if_neg (Nat.not_lt.2 h)]
  | crcBuf off cnt => rw [exec_crcBuf, if_neg (Nat.not_le.2 h)]
  | _ => exact h.elim

/-- A legal command whose buffer operand, if any, is in range responds OK where it is answered (R130). -/
theorem respondsOk_of_exec (hlegal : i.WellFormed = true) (hin : ¬ outOfRange s i) (h : exec i s = .next t) :
    RespondsOk s t := by
  cases i with
  | crcInit | crcLoad | crcByte | crcRead | setSrc | setDst | setLen => exact respondsOk_of_complete h rfl
  | getSrc | getDst | getPlen => exact respondsOk_of_afterRead h fun _ => rfl
  | crcBuf off cnt =>
    rw [exec, execCrcBuf, if_pos (spanInRange_iff.2 (Nat.not_lt.1 hin))] at h
    exact respondsOk_of_afterRead h fun _ => rfl
  | pktRdb off =>
    rw [exec, execPktRdb, if_pos (offsetInRange_iff.2 (Nat.not_le.1 hin))] at h
    exact respondsOk_of_afterRead h fun _ => rfl
  | pktWrb off b =>
    rw [exec, execPktWrb, if_pos (offsetInRange_iff.2 (Nat.not_le.1 hin))] at h
    exact respondsOk_of_complete h rfl
  | reserved0 | reservedE | reservedF => cases hlegal

/-- A legal word decodes to a legal command (R68). -/
theorem exists_decode_of_not_isIllegalWord (h : ¬ isIllegalWord w = true) :
    ∃ i, decode w = .ok i ∧ i.WellFormed = true := by
  cases hd : decode w with
  | ok i => exact ⟨i, rfl, by simpa [isIllegalWord_of_decode hd] using h⟩
  | error e => simp [isIllegalWord, hd] at h

/-- R130's table, as what an answered word can do: raise ILLEGAL, raise RANGE, or respond OK, each for its own cause
and a fault with no effect beside its response. -/
theorem answer_cases_of_execWord (h : execWord w s = .next t) :
    (isIllegalWord w = true ∧ t = answered 0x10000000#32 s) ∨
    (∃ i, decode w = .ok i ∧ outOfRange s i ∧ t = answered 0x20000000#32 s) ∨
    (∃ i, decode w = .ok i ∧ i.WellFormed = true ∧ ¬ outOfRange s i ∧ RespondsOk s t) := by
  by_cases hill : isIllegalWord w = true
  · rw [execWord_of_isIllegalWord hill] at h
    cases h
    exact .inl ⟨hill, rfl⟩
  obtain ⟨i, hd, hlegal⟩ := exists_decode_of_not_isIllegalWord hill
  simp only [execWord, hd] at h
  by_cases hout : outOfRange s i
  · rw [exec_of_outOfRange hout] at h
    cases h
    exact .inr (.inl ⟨i, hd, hout, rfl⟩)
  · exact .inr (.inr ⟨i, hd, hlegal, hout, respondsOk_of_exec hlegal hout h⟩)

/-! ## The obligations -/

/-- Settles O31: the three answers differ in their response, and their causes exclude each other. -/
theorem faultsHaveExactlyTheirCauses : Obligations.FaultsHaveExactlyTheirCauses := by
  intro w s t h
  obtain ⟨hill, rfl⟩ | ⟨i, hd, hout, rfl⟩ | ⟨i, hd, hlegal, hin, hok⟩ := answer_cases_of_execWord h
  · have hnone : ¬ ∃ i, decode w = .ok i ∧ outOfRange s i := fun ⟨_, hd, hout⟩ => by
      simp [isIllegalWord_eq_false_of_outOfRange hd hout] at hill
    simp [hill, hnone]
  · simp [isIllegalWord_eq_false_of_outOfRange hd hout, hd, hout]
  · have hneither {r : Word} (hr : responseStatus r ≠ 0x0#4) : ¬ t.responses = s.responses ++ [r] :=
      fun hresp => hr (responseStatus_of_respondsOk hok hresp)
    have hone := hneither (r := 0x10000000#32) (by decide)
    have htwo := hneither (r := 0x20000000#32) (by decide)
    simp [hone, htwo, isIllegalWord_of_decode hd, hd, hlegal, hin]

/-- Settles O32: of the three answers only the two faults have a status other than OK. -/
theorem faultingCommandsChangeNothing : Obligations.FaultingCommandsChangeNothing := by
  intro w s t r h hr hfault
  obtain ⟨-, rfl⟩ | ⟨-, -, -, rfl⟩ | ⟨-, -, -, -, hok⟩ := answer_cases_of_execWord h
  · obtain rfl := responses_answered_eq_iff.1 hr
    exact ⟨.inl rfl, rfl⟩
  · obtain rfl := responses_answered_eq_iff.1 hr
    exact ⟨.inr rfl, rfl⟩
  · exact absurd (responseStatus_of_respondsOk hok hr) hfault

end Sys2Proof.Proofs
end

section
/-! PROOFS. Reset between commands and during one, and the launch state (spec/70_reset_and_hazards.md R150, R153,
R155). -/

namespace Sys2Proof.Proofs

open Sys2Proof.Machine

variable {s t : State} {w : Word}

/-! ## One move of the host -/

/-- A step executes the host's next move in the state without it (R20, R23). -/
theorem step_of_hostMoves_cons {m : HostMove} {ms : List HostMove} (h : s.hostMoves = m :: ms) :
    step s = execMove m { s with hostMoves := ms } := by
  simp only [step, execNextMove, takeMove, h]

/-- A reset during a command abandons it exactly where the command would have been answered; elsewhere the step stops
as the command does (R153, log entry 5). -/
theorem execInterruptedWord_eq_next : execInterruptedWord w s = .next t ↔
    ∃ u, execWord w s = .next u ∧ abandonCommand (wordWrittenOffsets s.params.pktCap w) s u = t := by
  unfold execInterruptedWord
  split <;> simp [*]

/-- The response of an abandoned command is not delivered, or it is the one the command would have given (R153). -/
theorem responses_abandonCommand (offs : List Nat) (s t : State) :
    (abandonCommand offs s t).responses = s.responses ∨ (abandonCommand offs s t).responses = t.responses := by
  rw [abandonCommand_responses]
  split
  · exact .inr rfl
  · exact .inl rfl

/-! ## The obligations -/

/-- Settles O37: the free bytes go to the written offsets alone, and each draw of the delivery gives one of the two
responses. -/
theorem resetDuringACommand : Obligations.ResetDuringACommand := by
  intro s t w ms hmoves hstep
  rw [step_of_hostMoves_cons hmoves] at hstep
  obtain ⟨u, hu, rfl⟩ := execInterruptedWord_eq_next.1 hstep
  exact ⟨rfl, rfl, rfl, fun o ho => memLookup_storeFreeBytes ho,
    (responses_abandonCommand _ _ u).imp_right fun hresp => ⟨u, hu, hresp⟩⟩

/-- Settles O1: the step is the reset move, which writes ACC. -/
theorem resetInputLoadsAccumulatorOnly : Obligations.ResetInputLoadsAccumulatorOnly := fun _ _ hmoves =>
  step_of_hostMoves_cons hmoves

/-- Settles O2: the launch state lists no byte and no move. -/
theorem launchStateOfEveryInstance : Obligations.LaunchStateOfEveryInstance := fun _ =>
  ⟨rfl, rfl, memLookup_nil, rfl⟩

end Sys2Proof.Proofs
end

section
/-! PROOFS. Decoding and encoding undo each other: the word of a command is its row's match with the operands placed
beside the mask (spec/30_encoding.md R60 to R68), and the assembler's operands (R72). -/

namespace Sys2Proof.Proofs

open Sys2Proof.Machine Sys2Proof.Safety

variable {w : Word} {i : Instr} {r : OpcodeRow}

/-! ## A concatenation as an OR of placed parts -/

/-- Zero-extension of a concatenation places its first part above its second. -/
theorem setWidth_append_eq_or {m n k : Nat} (x : BitVec m) (y : BitVec n) :
    (x ++ y).setWidth k = x.setWidth k <<< n ||| y.setWidth k := by
  refine BitVec.eq_of_getLsbD_eq fun j hj => ?_
  have hj' : j - n < k := by omega
  simp only [BitVec.getLsbD_setWidth, BitVec.getLsbD_append, BitVec.getLsbD_or, BitVec.getLsbD_shiftLeft, hj, hj',
    decide_true, Bool.true_and]
  by_cases hn : j < n
  · simp [hn]
  · simp [hn, BitVec.getLsbD_of_ge y j (Nat.le_of_not_lt hn)]

/-- A command word is its opcode's bits with w[23:0] below them (R61 to R63). -/
theorem commandWord_eq_or (opc : BitVec 4) (low : Data24) :
    commandWord opc low = opc.setWidth 32 <<< 28 ||| low.setWidth 32 := by
  rw [← BitVec.setWidth_eq (commandWord opc low), commandWord, setWidth_append_eq_or, setWidth_append_eq_or]
  simp [← BitVec.shiftLeft_add]

/-- A reserved word is its opcode's bits with the other 28 below them (R66). -/
theorem reservedWord_eq_or (opc : BitVec 4) (low : BitVec 28) :
    reservedWord opc low = opc.setWidth 32 <<< 28 ||| low.setWidth 32 := by
  rw [← BitVec.setWidth_eq (reservedWord opc low), reservedWord, setWidth_append_eq_or]

/-! ## The words of the commands with operands, as their row's match and the placed operands -/

theorem encode_crcLoad (v : Crc16) : encode (.crcLoad v) = 0x20000000#32 ||| v.setWidth 32 := by
  rw [encode, commandWord_eq_or, formatH, setWidth_append_eq_or]
  simp

theorem encode_crcByte (b : Byte) : encode (.crcByte b) = 0x30000000#32 ||| b.setWidth 32 := by
  rw [encode, commandWord_eq_or, formatB, setWidth_append_eq_or]
  simp

theorem encode_crcBuf (off cnt : Field12) :
    encode (.crcBuf off cnt) = 0x40000000#32 ||| off.setWidth 32 <<< 12 ||| cnt.setWidth 32 := by
  rw [encode, commandWord_eq_or, formatOL, setWidth_append_eq_or, BitVec.or_assoc]
  simp

theorem encode_pktRdb (off : Field12) : encode (.pktRdb off) = 0x60000000#32 ||| off.setWidth 32 <<< 12 := by
  rw [encode, commandWord_eq_or, formatO, setWidth_append_eq_or]
  simp

theorem encode_pktWrb (off : Field12) (b : Byte) :
    encode (.pktWrb off b) = 0x70000000#32 ||| off.setWidth 32 <<< 12 ||| b.setWidth 32 := by
  rw [encode, commandWord_eq_or, formatOB, setWidth_append_eq_or, setWidth_append_eq_or, BitVec.or_assoc]
  simp [← BitVec.shiftLeft_add]

theorem encode_setSrc (v : Data24) : encode (.setSrc v) = 0x90000000#32 ||| v.setWidth 32 :=
  commandWord_eq_or ..

theorem encode_setDst (v : Data24) : encode (.setDst v) = 0xB0000000#32 ||| v.setWidth 32 :=
  commandWord_eq_or ..

theorem encode_setLen (n : Byte) : encode (.setLen n) = 0xD0000000#32 ||| n.setWidth 32 := by
  rw [encode, commandWord_eq_or, formatB, setWidth_append_eq_or]
  simp

/-! ## Decoding an encoded command -/

/-- The operand of a reserved word is its other 28 bits (R66). -/
theorem lowField_reservedWord (opc : BitVec 4) (low : BitVec 28) : lowField (reservedWord opc low) = low := by
  apply BitVec.eq_of_toNat_eq
  have := low.isLt
  rw [lowField, toNat_extractLsb'_eq, toNat_reservedWord]
  omega

/-- A reserved word decodes to its row's command with the word's other 28 bits (R66). -/
theorem decode_reservedWord {opc : BitVec 4} {mk : BitVec 28 → Instr} (low : BitVec 28)
    (hr : r ∈ opcodeMap) (hmask : r.mask = fieldMask 28 4) (hopc : opcField r.matchBits = opc)
    (hmatch : r.matchBits &&& fieldMask 28 4 = r.matchBits) (hread : ∀ w, r.read w = mk (lowField w)) :
    decode (reservedWord opc low) = .ok (mk low) := by
  have hsel : rowSelects (reservedWord opc low) r = true := by
    rw [rowSelects, beq_iff_eq, hmask, ← hmatch, and_fieldMask_eq_iff]
    exact (opcField_reservedWord opc low).trans hopc.symm
  rw [decode_of_rowSelects hr hsel, hread, lowField_reservedWord]

/-- R63, R65, R68: decoding undoes encoding, command by command. -/
theorem decode_encode (i : Instr) : decode (encode i) = .ok i := by
  cases i with
  | crcInit | crcRead | getSrc | getDst | getPlen => rfl
  | crcLoad v => rw [encode_crcLoad, decode_crcLoad_word]
  | crcByte b => rw [encode_crcByte, decode_crcByte_word]
  | crcBuf off cnt => rw [encode_crcBuf, decode_crcBuf_word]
  | pktRdb off => rw [encode_pktRdb, decode_pktRdb_word]
  | pktWrb off b => rw [encode_pktWrb, decode_pktWrb_word]
  | setSrc v => rw [encode_setSrc, decode_setSrc_word]
  | setDst v => rw [encode_setDst, decode_setDst_word]
  | setLen n => rw [encode_setLen, decode_setLen_word]
  | reserved0 low =>
    exact decode_reservedWord (r := opcodeMap[13]) low (List.getElem_mem _) rfl rfl rfl fun _ => rfl
  | reservedE low =>
    exact decode_reservedWord (r := opcodeMap[14]) low (List.getElem_mem _) rfl rfl rfl fun _ => rfl
  | reservedF low =>
    exact decode_reservedWord (r := opcodeMap[15]) low (List.getElem_mem _) rfl rfl rfl fun _ => rfl

/-! ## Encoding a decoded command -/

/-- A field put back in its own place gives the bits of the word under the field's mask. -/
theorem placed_extractLsb' (w : Word) {start len : Nat} (h : start + len ≤ 32) :
    (w.extractLsb' start len).setWidth 32 <<< start = w &&& fieldMask start len := by
  rw [← and_fieldMask_of_placed, and_fieldMask_eq_iff, extractLsb'_placed _ h]

/-- The lowest field of a word, zero-extended, gives the bits of the word under its mask. -/
theorem setWidth_extractLsb'_zero (w : Word) {len : Nat} (h : len ≤ 32) :
    (w.extractLsb' 0 len).setWidth 32 = w &&& fieldMask 0 len := by
  rw [← placed_extractLsb' w (by omega), BitVec.shiftLeft_zero]

/-- Every row reads all the bits of a word that its mask leaves free: encoding puts them back beside the match. -/
theorem encode_read (hr : r ∈ opcodeMap) (w : Word) : encode (r.read w) = r.matchBits ||| w &&& ~~~ r.mask := by
  have himm16 : (imm16Field w).setWidth 32 = w &&& fieldMask 0 16 := setWidth_extractLsb'_zero w (by decide)
  have himm8 : (imm8Field w).setWidth 32 = w &&& fieldMask 0 8 := setWidth_extractLsb'_zero w (by decide)
  have himm24 : (imm24Field w).setWidth 32 = w &&& fieldMask 0 24 := setWidth_extractLsb'_zero w (by decide)
  have hoff : (offField w).setWidth 32 <<< 12 = w &&& fieldMask 12 12 := placed_extractLsb' w (by decide)
  have hcnt : (cntField w).setWidth 32 = w &&& fieldMask 0 12 := setWidth_extractLsb'_zero w (by decide)
  have hlow : (lowField w).setWidth 32 = w &&& fieldMask 0 28 := setWidth_extractLsb'_zero w (by decide)
  have hnone (m : Word) : m = m ||| w &&& ~~~ 0xFFFFFFFF#32 := by simp
  simp only [opcodeMap, List.mem_cons, List.not_mem_nil, or_false] at hr
  rcases hr with rfl | rfl | rfl | rfl | rfl | rfl | rfl | rfl | rfl | rfl | rfl | rfl | rfl | rfl | rfl | rfl
  · exact hnone _
  · rw [encode_crcLoad, himm16]; rfl
  · rw [encode_crcByte, himm8]; rfl
  · rw [encode_crcBuf, hoff, hcnt, BitVec.or_assoc, ← BitVec.and_or_distrib_left]; rfl
  · exact hnone _
  · rw [encode_pktRdb, hoff]; rfl
  · rw [encode_pktWrb, hoff, himm8, BitVec.or_assoc, ← BitVec.and_or_distrib_left]; rfl
  · exact hnone _
  · rw [encode_setSrc, himm24]; rfl
  · exact hnone _
  · rw [encode_setDst, himm24]; rfl
  · exact hnone _
  · rw [encode_setLen, himm8]; rfl
  · rw [encode, reservedWord_eq_or, hlow]; rfl
  · rw [encode, reservedWord_eq_or, hlow]; rfl
  · rw [encode, reservedWord_eq_or, hlow]; rfl

/-- A row's match under its mask and the word's own bits beside it are the whole word. -/
theorem encode_of_decode (h : decode w = .ok i) : encode i = w := by
  obtain ⟨r, hr, hsel, rfl⟩ := exists_row_of_decode h
  have hmatch : r.matchBits = w &&& r.mask := (beq_iff_eq.1 hsel).symm
  rw [encode_read hr, hmatch, ← BitVec.and_or_distrib_left, BitVec.or_not_self, BitVec.and_allOnes]

/-! ## The assembler -/

/-- Where every operand fits its field, the field holds the operand unchanged (R72). -/
theorem disassemble_asmInstr {c : AsmCommand} (h : asmFits c = true) : disassemble (asmInstr c) = some c := by
  cases c with
  | crcInit | crcRead | getSrc | getDst | getPlen => rfl
  | crcLoad v | crcByte v | pktRdb v | setSrc v | setDst v | setLen v =>
    have hv := of_decide_eq_true h
    simp only [asmInstr, disassemble, BitVec.toNat_ofNat]
    rw [Nat.mod_eq_of_lt (by omega)]
  | crcBuf u v | pktWrb u v =>
    obtain ⟨hu, hv⟩ := (Bool.and_eq_true_iff.1 h).imp of_decide_eq_true of_decide_eq_true
    simp only [asmInstr, disassemble, BitVec.toNat_ofNat]
    rw [Nat.mod_eq_of_lt (by omega), Nat.mod_eq_of_lt (by omega)]

/-! ## The obligations -/

/-- Settles O6, from the words of the commands and the rows that read them. -/
theorem decodeOfEncodeIsTheCommand : Obligations.DecodeOfEncodeIsTheCommand := decode_encode

/-- Settles O7, since a row reads every bit that its mask leaves free. -/
theorem encodeOfDecodeIsTheWord : Obligations.EncodeOfDecodeIsTheWord := fun _ _ => encode_of_decode

/-- Settles O9: a word of a defined opcode is legal exactly when that opcode's row selects it. -/
theorem maskedMismatchIsIllegal : Obligations.MaskedMismatchIsIllegal := by
  intro r hr w hopc
  simp [isIllegalWord_of_mem_definedRows hr hopc, rowSelects]

/-- Settles O33: decoding comes before the range check, and the word is illegal by its must-be-zero bits alone. -/
theorem illegalGoesBeforeRange : Obligations.IllegalGoesBeforeRange := fun w s _ hbit _ =>
  execWord_of_isIllegalWord ((isIllegalWord_iff w).2 (.inr hbit)) s

/-- Settles O5: each word is a closed value, which the opcode map decodes. -/
theorem writtenOutWordsDecode : Obligations.WrittenOutWordsDecode := ⟨rfl, rfl, rfl, rfl, rfl, rfl⟩

/-- Settles O57: the word of a fitting command decodes to it, and its operands are read back unchanged. -/
theorem assemblerRefusesWhatDoesNotFit : Obligations.AssemblerRefusesWhatDoesNotFit := by
  refine ⟨fun c h => ⟨encode (asmInstr c), asmInstr c, ?_, decode_encode _, disassemble_asmInstr h⟩, fun c h => ?_,
    fun v => ?_, fun v u => ?_⟩
  · rw [assembleCommand, if_pos h]
  · rw [assembleCommand, if_neg (by simp [h])]
  · simp only [asmFits, decide_eq_true_eq, and_self]
  · simp only [asmFits, Bool.and_eq_true, decide_eq_true_eq, and_self]

end Sys2Proof.Proofs
end

section
/-! PROOFS. What one command, one move and one step can do to the state, and the invariant that follows
(spec/10_state.md R20 to R26, spec/70_reset_and_hazards.md R150 to R159). -/

namespace Sys2Proof.Proofs

open Sys2Proof.Machine Sys2Proof.Safety

variable {s t : State} {w : Word} {i : Instr} {m m' : Memory} {offs : List Nat}

/-! ## Stores at listed offsets -/

/-- The second buffer is the first with some byte stored at each listed offset, in order. -/
inductive StoresAt : List Nat → Memory → Memory → Prop
  | nil (m : Memory) : StoresAt [] m m
  | cons {o : Nat} {offs : List Nat} {m m' : Memory} (v : Byte) :
      StoresAt offs (memStore m o v) m' → StoresAt (o :: offs) m m'

theorem eq_of_storesAt_nil (h : StoresAt [] m m') : m' = m := by
  cases h
  rfl

/-- Stores keep the canonical form. -/
theorem StoresAt.wf (h : StoresAt offs m m') (hm : Memory.wf m) : Memory.wf m' := by
  induction h with
  | nil => exact hm
  | cons v _ ih => exact ih (memStore_wf hm _ v)

/-- Stores within the capacity keep the buffer within it. -/
theorem StoresAt.fits {cap : Nat} (h : StoresAt offs m m') (hoffs : ∀ o ∈ offs, o < cap)
    (hm : Memory.fits cap m) : Memory.fits cap m' := by
  induction h with
  | nil => exact hm
  | cons v _ ih =>
    obtain ⟨hoff, hrest⟩ := List.forall_mem_cons.1 hoffs
    exact ih hrest (memStore_fits hm hoff v)

/-- A 24-bit write stores at its three offsets (R42). -/
theorem storesAt_writeField24 (base : Nat) (v : Data24) (s : State) :
    StoresAt [base, base + 1, base + 2] s.pkt (writeField24 base v s).pkt :=
  .cons _ (.cons _ (.cons _ (.nil _)))

/-! ## The effect of one command -/

/-- A command that is answered adds one response, and changes beside it ACC and the bytes at its written offsets alone
(R21, R41). -/
theorem effect_of_exec (h : exec i s = .next t) : ∃ r a m,
    t = answered r { s with acc := a, pkt := m } ∧ StoresAt (writtenOffsets s.params.pktCap i) s.pkt m := by
  cases i with
  | crcInit | crcLoad | crcByte =>
    obtain ⟨r, rfl⟩ := exists_answered_of_complete h
    exact ⟨r, _, _, rfl, .nil _⟩
  | crcBuf =>
    obtain ⟨r, a, rfl⟩ := exists_answered_of_exec_crcBuf h
    exact ⟨r, a, _, rfl, .nil _⟩
  | crcRead | getSrc | getDst | getPlen =>
    obtain ⟨r, rfl⟩ := exists_answered_of_exec_reading (by simp) h
    exact ⟨r, _, _, rfl, .nil _⟩
  | pktRdb =>
    obtain ⟨r, rfl, -⟩ := exec_pktRdb_repeats h
    exact ⟨r, _, _, rfl, .nil _⟩
  | pktWrb off b =>
    rw [exec_pktWrb] at h
    rw [writtenOffsets]
    split at h
    · rename_i hin
      cases h
      rw [if_pos hin]
      exact ⟨_, _, _, rfl, .cons b (.nil _)⟩
    · rename_i hout
      cases h
      rw [if_neg hout]
      exact ⟨_, _, _, rfl, .nil _⟩
  | setSrc v | setDst v =>
    obtain ⟨r, rfl⟩ := exists_answered_of_complete h
    exact ⟨r, _, _, rfl, storesAt_writeField24 _ v s⟩
  | setLen n =>
    obtain ⟨r, rfl⟩ := exists_answered_of_complete h
    exact ⟨r, _, _, rfl, .cons _ (.nil _)⟩
  | reserved0 | reservedE | reservedF =>
    obtain ⟨r, rfl⟩ := exists_answered_of_raiseFault h
    exact ⟨r, _, _, rfl, .nil _⟩

/-- A word that is answered changes ACC, the bytes at its written offsets and the response list alone. -/
theorem effect_of_execWord (h : execWord w s = .next t) : ∃ r a m,
    t = answered r { s with acc := a, pkt := m } ∧ StoresAt (wordWrittenOffsets s.params.pktCap w) s.pkt m := by
  cases hd : decode w with
  | ok i =>
    simp only [execWord, hd] at h
    simpa only [wordWrittenOffsets, hd] using effect_of_exec h
  | error e =>
    simp only [execWord, hd] at h
    obtain ⟨r, rfl⟩ := exists_answered_of_raiseFault h
    simp only [wordWrittenOffsets, hd]
    exact ⟨r, _, _, rfl, .nil _⟩

/-- No command changes a parameter or the host's moves to come (R23, R25). -/
theorem params_hostMoves_of_exec (h : exec i s = .next t) : t.params = s.params ∧ t.hostMoves = s.hostMoves := by
  obtain ⟨r, a, m, rfl, -⟩ := effect_of_exec h
  exact ⟨rfl, rfl⟩

/-- No word changes a parameter or the host's moves to come (R23, R25). -/
theorem params_hostMoves_of_execWord (h : execWord w s = .next t) :
    t.params = s.params ∧ t.hostMoves = s.hostMoves := by
  obtain ⟨r, a, m, rfl, -⟩ := effect_of_execWord h
  exact ⟨rfl, rfl⟩

/-! ## The response of one command -/

/-- A response with status OK has R71's form. -/
theorem responseForm_setWidth (d : Data24) : ResponseForm (d.setWidth 32) := by
  refine ⟨BitVec.eq_of_toNat_eq ?_, .inl (responseStatus_setWidth d)⟩
  have hd : d.toNat < 2 ^ 24 := d.isLt
  rw [toNat_extractLsb'_eq, BitVec.toNat_setWidth, BitVec.toNat_ofNat]
  omega

/-- A word that is answered gets one response, of R71's form. -/
theorem exists_response_of_execWord (h : execWord w s = .next t) :
    ∃ r, t.responses = s.responses ++ [r] ∧ ResponseForm r := by
  obtain ⟨-, rfl⟩ | ⟨-, -, -, rfl⟩ | ⟨-, -, -, -, d, hd⟩ := answer_cases_of_execWord h
  · exact ⟨_, rfl, by decide⟩
  · exact ⟨_, rfl, by decide⟩
  · exact ⟨_, hd, responseForm_setWidth d⟩

/-- The outcome is a next state, or the stop at a byte of `s` that nothing has written (I1). -/
def NextOrUnwritten (s : State) (r : Result) : Prop :=
  (∃ t, r = .next t) ∨ ∃ off, r = .fault (.unwrittenByte off) ∧ memLookup s.pkt off = none

/-- What completes after a read stops only where the read does. -/
theorem nextOrUnwritten_afterRead {α : Type} {r : Except Fault α} {f : α → State}
    (hr : ∀ e, r = .error e → ∃ off, e = .unwrittenByte off ∧ memLookup s.pkt off = none) :
    NextOrUnwritten s (afterRead r fun a => .next (f a)) := by
  cases r with
  | ok a => exact .inl ⟨_, rfl⟩
  | error e =>
    obtain ⟨off, rfl, hoff⟩ := hr e rfl
    exact .inr ⟨off, rfl, hoff⟩

/-- A read of one byte stops only where nothing is written. -/
theorem unwritten_of_memRead {off : Nat} {e : Fault} (h : memRead s off = .error e) :
    ∃ off, e = .unwrittenByte off ∧ memLookup s.pkt off = none :=
  ⟨off, (memRead_eq_error.1 h).2, (memRead_eq_error.1 h).1⟩

/-- A range read stops only where nothing is written. -/
theorem unwritten_of_memReadRange {off n : Nat} {e : Fault} (h : memReadRange s off n = .error e) :
    ∃ off, e = .unwrittenByte off ∧ memLookup s.pkt off = none := by
  obtain ⟨k, -, -, hnone, rfl⟩ := memReadRange_eq_error.1 h
  exact ⟨_, rfl, hnone⟩

/-- A field read stops only where nothing is written. -/
theorem unwritten_of_readField24 {base : Nat} {e : Fault} (h : readField24 s base = .error e) :
    ∃ off, e = .unwrittenByte off ∧ memLookup s.pkt off = none := by
  obtain ⟨hnone, rfl⟩ | ⟨-, hnone, rfl⟩ | ⟨-, -, hnone, rfl⟩ := readField24_eq_error.1 h
  all_goals exact ⟨_, rfl, hnone⟩

/-- No command is refused, and the only stop is at an unwritten byte (R159, I1). -/
theorem nextOrUnwritten_exec (i : Instr) (s : State) : NextOrUnwritten s (exec i s) := by
  cases i with
  | crcInit | crcLoad | crcByte | crcRead | setSrc | setDst | setLen | reserved0 | reservedE | reservedF =>
    exact .inl ⟨_, rfl⟩
  | getSrc | getDst => exact nextOrUnwritten_afterRead fun _ => unwritten_of_readField24
  | getPlen => exact nextOrUnwritten_afterRead fun _ => unwritten_of_memRead
  | crcBuf off cnt =>
    rw [exec_crcBuf]
    split
    · exact nextOrUnwritten_afterRead fun _ => unwritten_of_memReadRange
    · exact .inl ⟨_, rfl⟩
  | pktRdb off =>
    rw [exec_pktRdb]
    split
    · exact nextOrUnwritten_afterRead fun _ => unwritten_of_memRead
    · exact .inl ⟨_, rfl⟩
  | pktWrb off b =>
    rw [exec_pktWrb]
    split <;> exact .inl ⟨_, rfl⟩

theorem nextOrUnwritten_execWord (w : Word) (s : State) : NextOrUnwritten s (execWord w s) := by
  unfold execWord
  split
  · exact nextOrUnwritten_exec _ s
  · exact .inl ⟨_, rfl⟩

/-! ## The effect of one step -/

/-- With no move to come the block idles (R141). -/
theorem step_of_hostMoves_nil (h : s.hostMoves = []) : step s = .next s := by
  simp only [step, execNextMove, takeMove, h]

/-- A step idles, or it executes the host's next move. -/
theorem step_cases (h : step s = .next t) :
    (s.hostMoves = [] ∧ t = s) ∨
    ∃ mv ms, s.hostMoves = mv :: ms ∧ execMove mv { s with hostMoves := ms } = .next t := by
  cases hm : s.hostMoves with
  | nil =>
    rw [step_of_hostMoves_nil hm] at h
    cases h
    exact .inl ⟨rfl, rfl⟩
  | cons mv ms =>
    rw [step_of_hostMoves_cons hm] at h
    exact .inr ⟨mv, ms, rfl, h⟩

/-- No move of the host changes a parameter or the moves after it (R25). -/
theorem params_hostMoves_of_execMove {mv : HostMove} (h : execMove mv s = .next t) :
    t.params = s.params ∧ t.hostMoves = s.hostMoves := by
  cases mv with
  | command w => exact params_hostMoves_of_execWord h
  | reset =>
    cases h
    exact ⟨rfl, rfl⟩
  | resetDuring w =>
    obtain ⟨u, -, rfl⟩ := execInterruptedWord_eq_next.1 h
    exact ⟨rfl, rfl⟩

/-! ## The invariant -/

/-- Where the capacity holds a header, every command writes within the capacity (R6, R44). -/
theorem lt_of_mem_writtenOffsets {cap o : Nat} (hcap : 10 ≤ cap) (h : o ∈ writtenOffsets cap i) : o < cap := by
  cases i with
  | pktWrb off b =>
    rw [writtenOffsets] at h
    split at h
    · rename_i hin
      rwa [List.mem_singleton.1 h]
    · simp at h
  | setSrc | setDst | setLen =>
    simp only [writtenOffsets, offSrc, offDst, offLen, List.mem_cons, List.not_mem_nil, or_false] at h
    omega
  | _ => simp [writtenOffsets] at h

theorem lt_of_mem_wordWrittenOffsets {cap o : Nat} (hcap : 10 ≤ cap) (h : o ∈ wordWrittenOffsets cap w) :
    o < cap := by
  unfold wordWrittenOffsets at h
  split at h
  · exact lt_of_mem_writtenOffsets hcap h
  · simp at h

/-- A word that is answered keeps the invariant. -/
theorem inv_of_execWord (hs : Inv s) (h : execWord w s = .next t) : Inv t := by
  obtain ⟨⟨hpoly, hlo, hhi⟩, hwf, hfits, hresp⟩ := hs
  obtain ⟨r, hr, hform⟩ := exists_response_of_execWord h
  obtain ⟨r', a, m, rfl, hm⟩ := effect_of_execWord h
  obtain rfl := responses_answered_eq_iff.1 hr
  refine ⟨⟨hpoly, hlo, hhi⟩, hm.wf hwf, hm.fits (fun o => lt_of_mem_wordWrittenOffsets hlo) hfits, fun q hq => ?_⟩
  rcases List.mem_append.1 hq with hq | hq
  · exact hresp q hq
  · rwa [List.mem_singleton.1 hq]

/-- A command abandoned on a reset keeps the invariant where its completion would have (R153). -/
theorem inv_abandonCommand (hs : Inv s) (ht : Inv t) (hoffs : ∀ o ∈ offs, o < s.params.pktCap) :
    Inv (abandonCommand offs s t) := by
  obtain ⟨hvalid, hwf, hfits, hresp⟩ := hs
  obtain ⟨-, -, -, hresp'⟩ := ht
  refine ⟨hvalid, storeFreeBytes_wf hwf, storeFreeBytes_fits hfits hoffs, ?_⟩
  rcases responses_abandonCommand offs s t with h | h
  · rwa [h]
  · rwa [h]

/-- Every move of the host keeps the invariant, a reset during a command included. -/
theorem inv_of_execMove {mv : HostMove} (hs : Inv s) (h : execMove mv s = .next t) : Inv t := by
  cases mv with
  | command w => exact inv_of_execWord hs h
  | reset =>
    cases h
    exact hs
  | resetDuring w =>
    obtain ⟨u, hu, rfl⟩ := execInterruptedWord_eq_next.1 h
    have ⟨⟨_, hlo, _⟩, _⟩ := hs
    exact inv_abandonCommand hs (inv_of_execWord hs hu) fun o => lt_of_mem_wordWrittenOffsets hlo

/-- A launch state within R6's constraints meets the invariant: it lists no byte and no response. -/
theorem inv_resetWith {p : Params} (hp : p.Valid) : Inv (State.resetWith p) :=
  ⟨hp, reset_pkt_wf p, fun _ hc => absurd hc List.not_mem_nil, fun _ hr => absurd hr List.not_mem_nil⟩

/-! ## The obligations -/

/-- Settles O35: the move's effect lies within its written offsets, and its response has R71's form. -/
theorem stepKeepsTheInvariant : Obligations.StepKeepsTheInvariant := by
  intro s t hs h
  obtain ⟨-, rfl⟩ | ⟨mv, ms, -, hmv⟩ := step_cases h
  · exact hs
  · exact inv_of_execMove (s := { s with hostMoves := ms }) hs hmv

/-- Settles O36, from the effect of each move. -/
theorem stepsChangeNoParameterAndNoMove : Obligations.StepsChangeNoParameterAndNoMove := by
  refine ⟨fun s t h => ?_, fun _ _ _ => params_hostMoves_of_exec⟩
  obtain ⟨hnil, rfl⟩ | ⟨mv, ms, hmoves, hmv⟩ := step_cases h
  · simp [hnil]
  · simpa [hmoves] using params_hostMoves_of_execMove hmv

/-- Settles O26: where the only stop does not occur, the answer is one response of R71's form. -/
theorem onlyUnwrittenReadsKeepAResponseBack : Obligations.OnlyUnwrittenReadsKeepAResponseBack := by
  intro w s
  refine (nextOrUnwritten_execWord w s).imp_left ?_
  rintro ⟨t, ht⟩
  obtain ⟨r, hr⟩ := exists_response_of_execWord ht
  exact ⟨t, r, ht, hr⟩

/-- Settles O28: with no written offset the effect leaves the buffer itself, and ACC stays by each command's answer. -/
theorem nonStoringCommandsFrame : Obligations.NonStoringCommandsFrame := by
  intro i s t hnone h
  refine ⟨?_, fun hi => ?_, ?_, ?_, fun hi => ?_⟩
  · obtain ⟨r, a, m, rfl, hm⟩ := effect_of_exec h
    rw [hnone] at hm
    obtain rfl := eq_of_storesAt_nil hm
    exact ⟨r, a, rfl⟩
  · obtain ⟨r, rfl⟩ := exists_answered_of_exec_reading hi h
    rfl
  · rintro off rfl
    obtain ⟨r, rfl, -⟩ := exec_pktRdb_repeats h
    rfl
  · rintro off b rfl
    obtain ⟨r, m, rfl⟩ := exists_answered_pkt_of_exec_pktWrb h
    rfl
  · rw [exec_of_not_wellFormed hi] at h
    cases h
    rfl

/-- Settles O3: the default parameters are within R6's constraints. -/
theorem launchStateMeetsInvariant : Obligations.LaunchStateMeetsInvariant :=
  ⟨inv_resetWith (by decide), fun _ => inv_resetWith⟩

/-- Settles O4, from the step on each kind of move list. -/
theorem stepRunsTheDecodedCommand : Obligations.StepRunsTheDecodedCommand := by
  refine ⟨fun s w ms i hmoves hd => ?_, fun s w ms e hmoves hd => ?_, fun _ => step_of_hostMoves_nil⟩
  · simp only [step_of_hostMoves_cons hmoves, execMove, execWord, hd]
  · have hill : isIllegalWord w = true := by simp only [isIllegalWord, hd]
    rw [step_of_hostMoves_cons hmoves]
    exact execWord_of_isIllegalWord hill _

end Sys2Proof.Proofs
end

section
/-! PROOFS. Runs of command words: no command looks at the ports it does not own, each word gets one response, and the
observation of a run (spec/10_state.md R23, R24, spec/70_reset_and_hazards.md R159, R160). -/

namespace Sys2Proof.Proofs

open Sys2Proof.Machine Sys2Proof.Safety

variable {s t : State} {w : Word} {ws : List Word} {f : State → State}

/-! ## Changes that no command can see -/

/-- The change leaves all that a command reads as it was, and it may be made before or after what a command does. -/
structure Unseen (f : State → State) : Prop where
  params : ∀ s, (f s).params = s.params
  acc : ∀ s, (f s).acc = s.acc
  pkt : ∀ s, (f s).pkt = s.pkt
  map_accWrite : ∀ v s, accWrite v (f s) = f (accWrite v s)
  map_memWrite : ∀ o v s, memWrite o v (f s) = f (memWrite o v s)
  map_respond : ∀ st d s, respond st d (f s) = f (respond st d s)

/-- The outcome with the change made to the next state, if there is one. -/
def mapNext (f : State → State) : Result → Result
  | .next t => .next (f t)
  | .fault e => .fault e
  | .refused r => .refused r

theorem mapNext_eq_next {r : Result} : mapNext f r = .next t ↔ ∃ u, r = .next u ∧ t = f u := by
  cases r <;> simp [mapNext, eq_comm]

theorem mapNext_eq_fault {r : Result} {e : Fault} : mapNext f r = .fault e ↔ r = .fault e := by
  cases r <;> simp [mapNext]

theorem mapNext_afterRead {α : Type} (r : Except Fault α) (k : α → Result) :
    mapNext f (afterRead r k) = afterRead r fun a => mapNext f (k a) := by
  cases r <;> rfl

theorem mapNext_ite (c : Prop) [Decidable c] (r r' : Result) :
    mapNext f (if c then r else r') = if c then mapNext f r else mapNext f r' := by
  split <;> rfl

namespace Unseen

variable (hf : Unseen f)
include hf

theorem map_complete (d : Data24) (s : State) : complete d (f s) = mapNext f (complete d s) :=
  congrArg Host.Outcome.next (hf.map_respond ..)

theorem map_raiseFault (c : FaultCause) (s : State) : raiseFault c (f s) = mapNext f (raiseFault c s) :=
  congrArg Host.Outcome.next (hf.map_respond ..)

theorem offsetInRange_eq (off : Field12) (s : State) : offsetInRange (f s) off = offsetInRange s off := by
  simp only [offsetInRange, hf.params]

theorem spanInRange_eq (off cnt : Field12) (s : State) : spanInRange (f s) off cnt = spanInRange s off cnt := by
  simp only [spanInRange, hf.params]

theorem memRead_eq (o : Nat) (s : State) : memRead (f s) o = memRead s o :=
  memRead_congr (congrArg (memLookup · o) (hf.pkt s))

theorem memReadRange_eq (o n : Nat) (s : State) : memReadRange (f s) o n = memReadRange s o n :=
  memReadRange_congr fun _ _ => congrArg (memLookup · _) (hf.pkt s)

theorem readField24_eq (base : Nat) (s : State) : readField24 (f s) base = readField24 s base := by
  simp only [readField24, hf.memRead_eq]

theorem map_writeField24 (base : Nat) (v : Data24) (s : State) :
    writeField24 base v (f s) = f (writeField24 base v s) := by
  simp only [writeField24, hf.map_memWrite]

/-- A command does the same with the change made before it as after it. -/
theorem map_exec (i : Instr) (s : State) : exec i (f s) = mapNext f (exec i s) := by
  cases i with
  | crcInit => simp only [exec, execCrcInit, hf.params, hf.map_accWrite, hf.map_complete]
  | crcLoad v => simp only [exec, execCrcLoad, hf.map_accWrite, hf.map_complete]
  | crcByte b => simp only [exec, execCrcByte, hf.params, hf.acc, hf.map_accWrite, hf.map_complete]
  | crcBuf off cnt =>
    simp only [exec, execCrcBuf, hf.spanInRange_eq, hf.params, hf.acc, hf.map_accWrite, hf.map_complete,
      hf.memReadRange_eq, hf.map_raiseFault, mapNext_ite, mapNext_afterRead]
  | crcRead => simp only [exec, execCrcRead, hf.acc, hf.map_complete]
  | pktRdb off =>
    simp only [exec, execPktRdb, hf.offsetInRange_eq, hf.memRead_eq, hf.map_complete, hf.map_raiseFault,
      mapNext_ite, mapNext_afterRead]
  | pktWrb off b =>
    simp only [exec, execPktWrb, hf.offsetInRange_eq, hf.map_memWrite, hf.map_complete, hf.map_raiseFault,
      mapNext_ite]
  | getSrc => simp only [exec, execGetSrc, hf.readField24_eq, hf.map_complete, mapNext_afterRead]
  | setSrc v => simp only [exec, execSetSrc, hf.map_writeField24, hf.map_complete]
  | getDst => simp only [exec, execGetDst, hf.readField24_eq, hf.map_complete, mapNext_afterRead]
  | setDst v => simp only [exec, execSetDst, hf.map_writeField24, hf.map_complete]
  | getPlen => simp only [exec, execGetPlen, hf.memRead_eq, hf.map_complete, mapNext_afterRead]
  | setLen n => simp only [exec, execSetLen, hf.map_memWrite, hf.map_complete]
  | reserved0 | reservedE | reservedF => exact hf.map_raiseFault .illegal s

theorem map_execWord (w : Word) (s : State) : execWord w (f s) = mapNext f (execWord w s) := by
  unfold execWord
  split
  · exact hf.map_exec _ s
  · exact hf.map_raiseFault .illegal s

end Unseen

/-! ## Earlier responses (R24) -/

/-- The state with these response words before its own. -/
def prependResponses (rs : List Word) (s : State) : State := { s with responses := rs ++ s.responses }

theorem unseen_prependResponses (rs : List Word) : Unseen (prependResponses rs) where
  params _ := rfl
  acc _ := rfl
  pkt _ := rfl
  map_accWrite _ _ := rfl
  map_memWrite _ _ _ := rfl
  map_respond _ _ _ := by simp [prependResponses, respond]

/-- A state is itself without its responses, and then with them before none. -/
theorem prependResponses_nil_responses (rs : List Word) (s : State) :
    prependResponses rs { s with responses := [] } = { s with responses := rs } := by
  simp [prependResponses]

/-- What a word does under any earlier responses, from what it does under none (R24). -/
theorem execWord_with_responses (w : Word) (rs : List Word) (s : State) : execWord w { s with responses := rs } =
    mapNext (prependResponses rs) (execWord w { s with responses := [] }) := by
  rw [← prependResponses_nil_responses, (unseen_prependResponses rs).map_execWord]

/-! ## Moves to come (R23) -/

/-- The state with these moves to come. -/
def withMoves (ms : List HostMove) (s : State) : State := { s with hostMoves := ms }

theorem unseen_withMoves (ms : List HostMove) : Unseen (withMoves ms) where
  params _ := rfl
  acc _ := rfl
  pkt _ := rfl
  map_accWrite _ _ := rfl
  map_memWrite _ _ _ := rfl
  map_respond _ _ _ := rfl

/-- A state is itself with its own moves. -/
theorem withMoves_of_hostMoves {ms : List HostMove} (h : s.hostMoves = ms) : withMoves ms s = s := by
  rw [← h]
  rfl

/-! ## Runs -/

/-- A run's first word is answered, and the run goes on from there. -/
theorem runWords_cons_eq_next : runWords (w :: ws) s = .next t ↔
    ∃ u, execWord w s = .next u ∧ runWords ws u = .next t := by
  rw [runWords]
  split <;> simp [*]

/-- A step that is answered is the first of the steps of a run. -/
theorem run_succ_of_step (h : step s = .next t) (k : Nat) :
    Host.Core.run Sys2Proof.core (k + 1) s = Host.Core.run Sys2Proof.core k t := by
  have hcore : Sys2Proof.core.step s = .next t := h
  simp only [Host.Core.run, hcore]

/-- The words, placed as the host's moves, run as that many steps (R160). -/
theorem run_of_runWords (hmoves : s.hostMoves = ws.map .command) (h : runWords ws (withMoves [] s) = .next t) :
    Host.Core.run Sys2Proof.core ws.length s = .next t := by
  induction ws generalizing s with
  | nil =>
    rwa [withMoves_of_hostMoves (show s.hostMoves = [] from hmoves)] at h
  | cons w ws ih =>
    obtain ⟨u, hu, hrun⟩ := runWords_cons_eq_next.1 h
    have hnil : withMoves [] u = u := withMoves_of_hostMoves (params_hostMoves_of_execWord hu).2
    have hstep : step s = .next (withMoves (ws.map .command) u) := by
      rw [step_of_hostMoves_cons hmoves]
      exact ((unseen_withMoves (ws.map .command)).map_execWord w (withMoves [] s)).trans (congrArg (mapNext _) hu)
    rw [← hnil] at hrun
    exact (run_succ_of_step hstep _).trans (ih rfl hrun)

/-- A run keeps the parameters, and adds one response for each word after those there were (R159, R160). -/
theorem params_responses_of_runWords (h : runWords ws s = .next t) :
    t.params = s.params ∧ ∃ rs : List Word, rs.length = ws.length ∧ t.responses = s.responses ++ rs := by
  induction ws generalizing s with
  | nil =>
    cases h
    exact ⟨rfl, [], rfl, (List.append_nil _).symm⟩
  | cons w ws ih =>
    obtain ⟨u, hu, hrun⟩ := runWords_cons_eq_next.1 h
    obtain ⟨r, hr, -⟩ := exists_response_of_execWord hu
    obtain ⟨hparams, rs, hlen, hrs⟩ := ih hrun
    refine ⟨hparams.trans (params_hostMoves_of_execWord hu).1, r :: rs, by simp [hlen], ?_⟩
    rw [hrs, hr, List.append_assoc, List.singleton_append]

/-- The range check compares with the parameters alone. -/
theorem outOfRange_congr {i : Instr} (h : t.params = s.params) : outOfRange t i ↔ outOfRange s i := by
  cases i <;> simp only [outOfRange, h]

/-- A word whose response reports no fault is legal and in range (R130). -/
theorem legal_of_faultFree (h : execWord w s = .next t) (hfree : FaultFree t) :
    isIllegalWord w = false ∧ ∀ i, decode w = .ok i → ¬ outOfRange s i := by
  obtain ⟨-, rfl⟩ | ⟨-, -, -, rfl⟩ | ⟨i, hd, hlegal, hin, -⟩ := answer_cases_of_execWord h
  · exact absurd (hfree 0x10000000#32 (by simp [answered])) (by decide)
  · exact absurd (hfree 0x20000000#32 (by simp [answered])) (by decide)
  · refine ⟨by rw [isIllegalWord_of_decode hd, hlegal, Bool.not_true], fun j hj => ?_⟩
    rw [hd] at hj
    cases hj
    exact hin

/-- A run without recorded faults had none at any earlier point of it. -/
theorem faultFree_of_runWords (h : runWords ws s = .next t) (hfree : FaultFree t) : FaultFree s := by
  obtain ⟨-, rs, -, hrs⟩ := params_responses_of_runWords h
  intro r hr
  exact hfree r (by simp [hrs, hr])

/-- A run without recorded faults issued only legal words in range (I2). -/
theorem legal_of_runWords (h : runWords ws s = .next t) (hfree : FaultFree t) :
    ∀ w ∈ ws, isIllegalWord w = false ∧ ∀ i, decode w = .ok i → ¬ outOfRange s i := by
  induction ws generalizing s with
  | nil => simp
  | cons w ws ih =>
    obtain ⟨u, hu, hrun⟩ := runWords_cons_eq_next.1 h
    have hrest := ih hrun
    simp only [outOfRange_congr (params_hostMoves_of_execWord hu).1] at hrest
    exact List.forall_mem_cons.2 ⟨legal_of_faultFree hu (faultFree_of_runWords hrun hfree), hrest⟩

/-! ## The buffer that an observation shows -/

/-- Where the buffer lists no offset from `cap` on, a read there finds nothing. -/
theorem memLookup_eq_none_of_fits {cap o : Nat} {m : Memory} (h : Memory.fits cap m) (ho : cap ≤ o) :
    memLookup m o = none := by
  induction m with
  | nil => rfl
  | cons c m ih =>
    obtain ⟨hc, hm⟩ := List.forall_mem_cons.1 h
    rw [memLookup, if_neg (by omega), ih hm]

/-- In canonical form nothing below the first entry is listed. -/
theorem memLookup_cons_of_lt {c : Host.Cell} {m : Memory} {o : Nat} (h : Memory.wf (c :: m)) (ho : o < c.1) :
    memLookup (c :: m) o = none :=
  memLookup_eq_none_of_lt (List.forall_mem_cons.2 ⟨ho, fun d hd => ho.trans ((List.pairwise_cons.1 h).1 d hd)⟩)

theorem memLookup_cons_self (c : Host.Cell) (m : Memory) : memLookup (c :: m) c.1 = some c.2 := if_pos rfl

/-- Two buffers in canonical form that read alike at every offset are the same list. -/
theorem memory_ext {m m' : Memory} (hm : Memory.wf m) (hm' : Memory.wf m')
    (h : ∀ o, memLookup m o = memLookup m' o) : m = m' := by
  induction m generalizing m' with
  | nil =>
    cases m' with
    | nil => rfl
    | cons d m' => simpa [memLookup_cons_self] using h d.1
  | cons c m ih =>
    cases m' with
    | nil => simpa [memLookup_cons_self] using h c.1
    | cons d m' =>
      have hfst : c.1 = d.1 := by
        rcases lt_trichotomy c.1 d.1 with hlt | heq | hgt
        · simpa [memLookup_cons_self, memLookup_cons_of_lt hm' hlt] using h c.1
        · exact heq
        · simpa [memLookup_cons_self, memLookup_cons_of_lt hm hgt] using h d.1
      have hsnd : c.2 = d.2 := by
        have := h c.1
        rw [memLookup_cons_self, hfst, memLookup_cons_self] at this
        exact Option.some.inj this
      obtain ⟨hc, hmtail⟩ := List.pairwise_cons.1 hm
      obtain ⟨hd, hmtail'⟩ := List.pairwise_cons.1 hm'
      have htail : m = m' := ih hmtail hmtail' fun o => by
        by_cases ho : c.1 < o
        · have := h o
          rwa [memLookup, memLookup, if_neg (by omega), if_neg (by omega)] at this
        · rw [memLookup_eq_none_of_lt fun e he => lt_of_le_of_lt (Nat.le_of_not_lt ho) (hc e he),
            memLookup_eq_none_of_lt fun e he => lt_of_le_of_lt (Nat.le_of_not_lt ho) (hfst ▸ hd e he)]
      rw [htail, Prod.ext hfst hsnd]

/-! ## The obligations -/

/-- Settles O34: both runs are the one under no earlier response, with the earlier ones put before its own. -/
theorem faultsAreNotSticky : Obligations.FaultsAreNotSticky := by
  intro w s fault
  have hbefore := execWord_with_responses w s.responses s
  have hafter := execWord_with_responses w (s.responses ++ [fault]) s
  refine ⟨fun t h => ?_, fun e h => ?_⟩
  · obtain ⟨u, hu, rfl⟩ := mapNext_eq_next.1 (hbefore.symm.trans h)
    obtain ⟨r, hr, -⟩ := exists_response_of_execWord hu
    have hresp (rs : List Word) : (prependResponses rs u).responses = rs ++ [r] := by rw [prependResponses, hr]; rfl
    rw [hu] at hafter
    refine ⟨r, hresp _, hafter.trans ?_⟩
    simp [mapNext, prependResponses, hr]
  · have hfault := mapNext_eq_fault.1 (hbefore.symm.trans h)
    exact hafter.trans (mapNext_eq_fault.2 hfault)

/-- Settles O38, by induction on the words. -/
theorem runIsStepsWithOneResponseEach : Obligations.RunIsStepsWithOneResponseEach :=
  ⟨fun _ _ _ => run_of_runWords, fun _ _ _ h => (params_responses_of_runWords h).2⟩

/-- Settles O39: the buffer is canonical and within the capacity, so what is observed below it decides every byte. -/
theorem observationDeterminesTheBlock : Obligations.ObservationDeterminesTheBlock := by
  rintro s t ⟨-, hwf, hfits, -⟩ ⟨-, hwf', hfits', -⟩ hparams hobs
  simp only [observe, Observation.mk.injEq, ← hparams] at hobs
  obtain ⟨hresp, hacc, hpkt⟩ := hobs
  rw [← hparams] at hfits'
  refine ⟨hacc, memory_ext hwf hwf' fun o => ?_, hresp⟩
  by_cases ho : o < s.params.pktCap
  · exact List.map_inj_left.1 hpkt o (List.mem_range.2 ho)
  · rw [memLookup_eq_none_of_fits hfits (Nat.le_of_not_lt ho), memLookup_eq_none_of_fits hfits' (Nat.le_of_not_lt ho)]

/-- Settles O40, by induction on the words: each word's response is still recorded at the end. -/
theorem faultFreeRunsIssueLegalWords : Obligations.FaultFreeRunsIssueLegalWords :=
  fun _ _ _ => legal_of_runWords

end Sys2Proof.Proofs
end

section
/-! PROOFS. The laws of the CRC arithmetic: R80's loop is linear over GF(2) and, where CRC_POLY[0] = 1, one-to-one
(spec/40_crc.md R81, R82, R91 to R96). -/

namespace Sys2Proof.Proofs

open Sys2Proof.Machine Sys2Proof.Safety
open Polynomial (X)

variable {poly init a c : Crc16}

/-! ## Linearity of the loop -/

/-- One pass is a shift, and CRC_POLY added where bit 15 was set. -/
theorem crcShift_eq_xor (poly a : Crc16) :
    crcShift poly a = a <<< 1 ^^^ if a.getLsbD 15 then poly else 0#16 := by
  unfold crcShift
  split <;> simp

theorem crcShift_xor (poly a c : Crc16) : crcShift poly (a ^^^ c) = crcShift poly a ^^^ crcShift poly c := by
  have hfeedback : (if (a ^^^ c).getLsbD 15 then poly else 0#16) =
      (if a.getLsbD 15 then poly else 0#16) ^^^ if c.getLsbD 15 then poly else 0#16 := by
    rw [BitVec.getLsbD_xor]
    cases a.getLsbD 15 <;> cases c.getLsbD 15 <;> simp
  rw [crcShift_eq_xor, crcShift_eq_xor, crcShift_eq_xor, BitVec.shiftLeft_xor_distrib, hfeedback]
  ac_rfl

theorem crcShifts_xor (poly : Crc16) (n : Nat) (a c : Crc16) :
    crcShifts poly n (a ^^^ c) = crcShifts poly n a ^^^ crcShifts poly n c := by
  induction n generalizing a c with
  | zero => rfl
  | succ n ih => rw [crcShifts, crcShift_xor, ih, crcShifts, crcShifts]

/-- `m` passes and then `n` are `m + n` passes. -/
theorem crcShifts_crcShifts (poly : Crc16) (m n : Nat) (a : Crc16) :
    crcShifts poly n (crcShifts poly m a) = crcShifts poly (n + m) a := by
  simp only [crcShifts_eq_iterate, Function.iterate_add_apply]

/-- While the top `n` bits are zero, `n` passes only shift: none of them adds the polynomial. -/
theorem crcShifts_eq_shiftLeft (poly : Crc16) {n : Nat} (h : ∀ i, 16 ≤ i + n → a.getLsbD i = false) :
    crcShifts poly n a = a <<< n := by
  induction n generalizing a with
  | zero => rw [crcShifts, BitVec.shiftLeft_zero]
  | succ n ih =>
    have hshift : crcShift poly a = a <<< 1 := by
      rw [crcShift, h 15 (by omega)]
      rfl
    have htop : ∀ i, 16 ≤ i + n → (a <<< 1).getLsbD i = false := fun i hi => by
      cases i with
      | zero => simp
      | succ i => simp [h i (by omega)]
    rw [crcShifts, hshift, ih htop, ← BitVec.shiftLeft_add, Nat.add_comm]

theorem crcStep_xor (poly a c : Crc16) (b b' : Byte) :
    crcStep poly (a ^^^ c) (b ^^^ b') = crcStep poly a b ^^^ crcStep poly c b' := by
  simp only [crcStep, ← crcShifts_xor, BitVec.setWidth_xor, BitVec.shiftLeft_xor_distrib]
  congr 1
  ac_rfl

/-- R94: the fold is linear in the start value and the bytes together. -/
theorem crcFold_xor (poly a c : Crc16) {d e : List Byte} (h : d.length = e.length) :
    crcFold poly (a ^^^ c) (List.zipWith (· ^^^ ·) d e) = crcFold poly a d ^^^ crcFold poly c e := by
  induction d generalizing a c e with
  | nil => rw [List.length_eq_zero_iff.1 h.symm]; rfl
  | cons b d ih =>
    obtain ⟨b', e, rfl⟩ := List.exists_cons_of_length_eq_add_one h.symm
    rw [List.zipWith_cons_cons, crcFold, crcStep_xor, ih _ _ (Nat.succ.inj h), crcFold, crcFold]

/-- Zero bytes from a zero accumulator leave it zero. -/
theorem crcFold_zero_replicate (poly : Crc16) (n : Nat) :
    crcFold poly 0#16 (List.replicate n 0#8) = 0#16 := by
  induction n with
  | zero => rfl
  | succ n ih =>
    have hstep : crcStep poly 0#16 0#8 = 0#16 := crcShifts_zero poly 8
    rw [List.replicate_succ, crcFold, hstep, ih]

theorem zipWith_xor_zeros (d : List Byte) :
    List.zipWith (· ^^^ ·) d (List.replicate d.length 0#8) = d := by
  induction d with
  | nil => rfl
  | cons b d ih => rw [List.length_cons, List.replicate_succ, List.zipWith_cons_cons, ih, BitVec.xor_zero]

/-- R93: the fold over two sequences one after the other. -/
theorem crcFold_append (poly init : Crc16) (d e : List Byte) :
    crcFold poly init (d ++ e) = crcFold poly (crcFold poly init d) e := by
  induction d generalizing init with
  | nil => rfl
  | cons b d ih => exact ih _

/-! ## Two bytes as a 16-bit value -/

/-- Two bytes, the first in the higher places. -/
theorem append_bytes_eq_xor (b b' : Byte) :
    (b ++ b' : Crc16) = b.setWidth 16 <<< 8 ^^^ b'.setWidth 16 := by
  refine BitVec.eq_of_getLsbD_eq fun i hi => ?_
  have hi' : i - 8 < 16 := by omega
  rw [BitVec.getLsbD_append, BitVec.getLsbD_xor, BitVec.getLsbD_shiftLeft, BitVec.getLsbD_setWidth,
    BitVec.getLsbD_setWidth]
  by_cases h8 : i < 8
  · simp [h8, hi]
  · simp [h8, hi, hi', BitVec.getLsbD_of_ge b' i (by omega)]

/-- An accumulator is its two bytes. -/
theorem append_bytes_of_crc (a : Crc16) : a.extractLsb' 8 8 ++ a.extractLsb' 0 8 = a :=
  (BitVec.extractLsb'_append_extractLsb'_eq_extractLsb' rfl).trans BitVec.extractLsb'_eq_self

/-- A byte added at the high places meets the high byte alone. -/
theorem xor_byte_eq_lowByte_xor (a : Crc16) (b : Byte) : a ^^^ b.setWidth 16 <<< 8 =
    (a.extractLsb' 0 8).setWidth 16 ^^^ (a.extractLsb' 8 8 ^^^ b).setWidth 16 <<< 8 := by
  have ha : a = (a.extractLsb' 8 8).setWidth 16 <<< 8 ^^^ (a.extractLsb' 0 8).setWidth 16 := by
    rw [← append_bytes_eq_xor, append_bytes_of_crc]
  rw [BitVec.setWidth_xor, BitVec.shiftLeft_xor_distrib]
  conv_lhs => rw [ha]
  ac_rfl

/-- A shift by eight places keeps the low byte alone. -/
theorem shiftLeft_eight_eq_lowByte (a : Crc16) : a <<< 8 = (a.extractLsb' 0 8).setWidth 16 <<< 8 := by
  refine BitVec.eq_of_getLsbD_eq fun i hi => ?_
  have hlow : i - 8 < 8 ∧ i - 8 < 16 := by omega
  simp [hlow]

/-- A concatenation determines its parts. -/
theorem append_inj {m n : Nat} {x x' : BitVec m} {y y' : BitVec n} (h : x ++ y = x' ++ y') : x = x' ∧ y = y' := by
  have hhi := congrArg (BitVec.extractLsb' n m) h
  have hlo := congrArg (BitVec.extractLsb' 0 n) h
  rw [BitVec.extractLsb'_append_eq_left, BitVec.extractLsb'_append_eq_left] at hhi
  rw [BitVec.extractLsb'_append_eq_right, BitVec.extractLsb'_append_eq_right] at hlo
  exact ⟨hhi, hlo⟩

/-- Eight passes take the low byte to the high places. -/
theorem crcShifts_eight_byte (poly : Crc16) (b : Byte) :
    crcShifts poly 8 (b.setWidth 16) = b.setWidth 16 <<< 8 :=
  crcShifts_eq_shiftLeft poly fun i hi => by simp [BitVec.getLsbD_of_ge b i (by omega)]

/-- A table entry is eight passes over its index at the high places (R82). -/
theorem crcTableEntry_eq (poly : Crc16) (i : Byte) :
    crcTableEntry poly i = crcShifts poly 8 (i.setWidth 16 <<< 8) := by
  simp [crcTableEntry, crcStep]

/-- Two bytes are absorbed as the 16-bit value they make, in sixteen passes. -/
theorem crcFold_two (poly init : Crc16) (b b' : Byte) :
    crcFold poly init [b, b'] = crcShifts poly 16 (init ^^^ (b ++ b')) := by
  calc crcFold poly init [b, b']
      = crcShifts poly 8 (crcShifts poly 8 (init ^^^ b.setWidth 16 <<< 8) ^^^ b'.setWidth 16 <<< 8) := rfl
    _ = crcShifts poly 16 (init ^^^ b.setWidth 16 <<< 8 ^^^ b'.setWidth 16) := by
        rw [← crcShifts_eight_byte poly b', ← crcShifts_xor, crcShifts_crcShifts]
    _ = crcShifts poly 16 (init ^^^ (b ++ b')) := by rw [append_bytes_eq_xor, BitVec.xor_assoc]

/-! ## Injectivity, where CRC_POLY[0] = 1 (R6) -/

theorem getLsbD_crcShift_zero (hpoly : poly.getLsbD 0 = true) (a : Crc16) :
    (crcShift poly a).getLsbD 0 = a.getLsbD 15 := by
  rw [crcShift_eq_xor, BitVec.getLsbD_xor, BitVec.getLsbD_shiftLeft]
  cases a.getLsbD 15 <;> simp [hpoly]

theorem getLsbD_crcShift_succ (poly a : Crc16) {i : Nat} (hi : i < 15) :
    (crcShift poly a).getLsbD (i + 1) = (a.getLsbD i ^^ (a.getLsbD 15 && poly.getLsbD (i + 1))) := by
  have hi' : i + 1 < 16 := by omega
  rw [crcShift_eq_xor, BitVec.getLsbD_xor, BitVec.getLsbD_shiftLeft]
  cases a.getLsbD 15 <;> simp [hi']

/-- One pass loses nothing: bit 0 of the result is the bit 15 that was shifted out. -/
theorem crcShift_injective (hpoly : poly.getLsbD 0 = true) : Function.Injective (crcShift poly) := by
  intro a c h
  have h15 : a.getLsbD 15 = c.getLsbD 15 := by
    rw [← getLsbD_crcShift_zero hpoly, h, getLsbD_crcShift_zero hpoly]
  refine BitVec.eq_of_getLsbD_eq fun i hi => ?_
  rcases Nat.lt_or_ge i 15 with hlt | hge
  · have hbit := congrArg (BitVec.getLsbD · (i + 1)) h
    simp only [getLsbD_crcShift_succ poly _ hlt, h15] at hbit
    exact Bool.xor_left_inj.1 hbit
  · obtain rfl : i = 15 := by omega
    exact h15

theorem crcShifts_injective (hpoly : poly.getLsbD 0 = true) (n : Nat) : Function.Injective (crcShifts poly n) := by
  rw [show crcShifts poly n = (crcShift poly)^[n] from funext (crcShifts_eq_iterate poly n)]
  exact (crcShift_injective hpoly).iterate n

theorem crcStep_injective (hpoly : poly.getLsbD 0 = true) (b : Byte) :
    Function.Injective fun acc => crcStep poly acc b :=
  fun _ _ h => (BitVec.xor_left_inj _).1 (crcShifts_injective hpoly 8 h)

theorem crcStep_byte_injective (hpoly : poly.getLsbD 0 = true) (acc : Crc16) :
    Function.Injective (crcStep poly acc) := by
  intro b c h
  have hplaced := (BitVec.xor_right_inj acc).1 (crcShifts_injective hpoly 8 h)
  have happend : b ++ 0#8 = c ++ 0#8 := by rw [append_bytes_eq_xor, append_bytes_eq_xor, hplaced]
  exact (append_inj happend).1

theorem crcFold_injective (hpoly : poly.getLsbD 0 = true) (d : List Byte) :
    Function.Injective fun init => crcFold poly init d := by
  induction d with
  | nil => exact Function.injective_id
  | cons b d ih => exact ih.comp (crcStep_injective hpoly b)

/-! ## Collisions -/

/-- The two bytes that take what the first byte 1 changes back, after the first byte 0. -/
theorem crcFold_collision (poly init : Crc16) :
    crcFold poly init [0#8, (crcStep poly 0#16 1#8).extractLsb' 8 8, (crcStep poly 0#16 1#8).extractLsb' 0 8] =
      crcFold poly init [1#8, 0#8, 0#8] := by
  have hone : crcStep poly init 1#8 = crcStep poly init 0#8 ^^^ crcStep poly 0#16 1#8 := by
    rw [← crcStep_xor, BitVec.xor_zero, BitVec.zero_xor]
  rw [crcFold, crcFold_two, append_bytes_of_crc, crcFold, crcFold_two, hone]
  exact congrArg (crcShifts poly 16) (BitVec.xor_zero).symm

/-! ## The polynomial form of the fold -/

section
variable {g : Polynomial (ZMod 2)} (hg : IsPolyOf g poly)
include hg

/-- R81's polynomial form, by induction on the bytes: each one multiplies what came before by x^8. -/
theorem isPolyOf_crcFold {pinit : Polynomial (ZMod 2)} {d : List Byte} {pd : Nat → Polynomial (ZMod 2)}
    (hinit : IsPolyOf pinit init) (hd : ∀ k (h : k < d.length), IsPolyOf (pd k) d[k]) :
    IsPolyOf ((pinit * X ^ (8 * d.length) +
      (∑ k ∈ Finset.range d.length, pd k * X ^ (8 * (d.length - 1 - k))) * X ^ 16) %ₘ (X ^ 16 + g))
      (crcFold poly init d) := by
  induction d generalizing init pinit pd with
  | nil => simpa [crcFold, crcShifts] using isPolyOf_crcShifts hg 0 hinit
  | cons b d ih =>
    have hstep := isPolyOf_crcStep hg hinit (hd 0 (by simp))
    have hrest := ih hstep fun k hk => hd (k + 1) (by simpa using hk)
    have hfirst : ∑ k ∈ Finset.range (d.length + 1), pd k * X ^ (8 * (d.length - k)) =
        (∑ k ∈ Finset.range d.length, pd (k + 1) * X ^ (8 * (d.length - 1 - k))) + pd 0 * X ^ (8 * d.length) := by
      simp only [Finset.sum_range_succ', Nat.sub_zero, Nat.sub_add_eq, Nat.sub_right_comm _ 1]
    rw [List.length_cons, Nat.add_sub_cancel, hfirst,
      Polynomial.modByMonic_eq_of_dvd_sub (monic_generator hg) (p₂ := _ + _) ?_]
    · exact hrest
    · obtain ⟨q, hq⟩ := Polynomial.dvd_modByMonic_sub (pinit * X ^ 8 + pd 0 * X ^ 16) (X ^ 16 + g)
      refine ⟨-q * X ^ (8 * d.length), ?_⟩
      linear_combination (-X ^ (8 * d.length)) * hq

end

/-! ## The obligations -/

/-- Settles O42, since a 16-bit value stands for one polynomial. -/
theorem crcFoldIsThePolynomialRemainder : Obligations.CrcFoldIsThePolynomialRemainder :=
  fun _ _ _ _ _ _ _ hg hinit hd hr => isPolyOf_unique hr (isPolyOf_crcFold hg hinit hd)

/-- Settles O43: the accumulator is its high byte, which the table takes with the data byte, and its low byte, which
the passes only shift. -/
theorem tableDrivenUpdateAgrees : Obligations.TableDrivenUpdateAgrees := by
  intro poly acc b
  rw [crcStep, xor_byte_eq_lowByte_xor, crcShifts_xor, crcShifts_eight_byte, crcStepByTable, crcTableEntry_eq,
    shiftLeft_eight_eq_lowByte acc]

/-- Settles O47: the fold over what follows is one-to-one, and so is one step in its byte. -/
theorem oneByteChangeAlwaysDetected : Obligations.OneByteChangeAlwaysDetected := by
  intro poly init d e b c hpoly hne h
  rw [crcFold_append, crcFold_append] at h
  exact hne (crcStep_byte_injective hpoly _ (crcFold_injective hpoly e h))

/-- Settles O48: on the finite set of accumulators one-to-one is bijective. -/
theorem resultDependsBijectivelyOnInit : Obligations.ResultDependsBijectivelyOnInit := fun _ hpoly =>
  ⟨fun b => Finite.injective_iff_bijective.1 (crcStep_injective hpoly b),
    fun d => Finite.injective_iff_bijective.1 (crcFold_injective hpoly d)⟩

/-- Settles O50: each clause is the fold's linearity at zero bytes, at a zero start, or at both. -/
theorem crcIsAffine : Obligations.CrcIsAffine := by
  intro poly init d e hlen
  refine ⟨?_, ?_, crcFold_zero_replicate poly d.length⟩
  · rw [← crcFold_xor poly 0#16 init (List.length_replicate ..).symm, zipWith_xor_zeros, BitVec.zero_xor]
  · rw [← crcFold_xor poly 0#16 0#16 hlen, BitVec.xor_self]

/-- Settles O51: two bytes are absorbed as one 16-bit value. -/
theorem shortInputsNeverCollide : Obligations.ShortInputsNeverCollide := by
  intro poly init hpoly
  refine ⟨fun b c h => crcStep_byte_injective hpoly init h, fun b b' c c' h => ?_⟩
  rw [crcFold_two, crcFold_two] at h
  exact append_inj ((BitVec.xor_right_inj init).1 (crcShifts_injective hpoly 16 h))

/-- Settles O52: the colliding three bytes, with the same bytes after them. -/
theorem longerInputsCollide : Obligations.LongerInputsCollide := by
  refine ⟨fun poly init n hn => ?_, fun init => ?_, by decide +kernel⟩
  · obtain ⟨m, rfl⟩ := Nat.exists_eq_add_of_le hn
    have hcollide := crcFold_collision poly init
    refine ⟨_ ++ List.replicate m 0#8, _ ++ List.replicate m 0#8, ?_, ?_, ?_,
      ((crcFold_append ..).trans (congrArg (crcFold poly · _) hcollide)).trans (crcFold_append ..).symm⟩
    · simp only [List.length_append, List.length_cons, List.length_nil, List.length_replicate]
    · simp only [List.length_append, List.length_cons, List.length_nil, List.length_replicate]
    · simp
  · have hchange : crcStep 0x8005#16 0#16 1#8 = 0x8005#16 := by decide
    have h := crcFold_collision 0x8005#16 init
    rw [hchange] at h
    exact h

end Sys2Proof.Proofs
end

section
/-! PROOFS. Sequences of commands: reads of unwritten bytes, checksums over PKT, and the laws of the codec
(spec/40_crc.md R88, R93, spec/41_packet_codec.md R108 to R111, spec/93_implementation_defined.md I1). -/

namespace Sys2Proof.Proofs

open Sys2Proof.Machine Sys2Proof.Safety

variable {s t u : State} {is : List Instr} {v : Data24} {off : Field12} {base o k : Nat}

/-! ## The bytes of a 24-bit field (R42) -/

/-- The byte of a 24-bit value that a field holds `k` offsets after its base: the most significant one first. -/
def fieldByte (v : Data24) (k : Nat) : Byte := v.extractLsb' (16 - 8 * k) 8

/-- The 24-bit value of three bytes, the most significant one first. -/
def ofFieldBytes (f : Nat → Byte) : Data24 := f 0 ++ f 1 ++ f 2

theorem ofFieldBytes_fieldByte (v : Data24) : ofFieldBytes (fieldByte v) = v := by
  have hhi : fieldByte v 0 ++ fieldByte v 1 = v.extractLsb' 8 16 :=
    BitVec.extractLsb'_append_extractLsb'_eq_extractLsb' rfl
  rw [ofFieldBytes, hhi]
  exact (BitVec.extractLsb'_append_extractLsb'_eq_extractLsb' rfl).trans BitVec.extractLsb'_eq_self

theorem fieldByte_ofFieldBytes (f : Nat → Byte) (hk : k < 3) : fieldByte (ofFieldBytes f) k = f k := by
  obtain ⟨h01, h2⟩ := append_inj (ofFieldBytes_fieldByte (ofFieldBytes f))
  obtain ⟨h0, h1⟩ := append_inj h01
  interval_cases k
  · exact h0
  · exact h1
  · exact h2

/-- Every bit of a 24-bit value is a bit of one of its bytes. -/
theorem getLsbD_eq_fieldByte (v : Data24) {i : Nat} (hi : i < 24) :
    v.getLsbD i = (fieldByte v (2 - i / 8)).getLsbD (i % 8) := by
  have hplace : 16 - 8 * (2 - i / 8) + i % 8 = i := by omega
  have hbit : i % 8 < 8 := Nat.mod_lt i (by decide)
  simp [fieldByte, hplace, hbit]

/-- The buffer holds the 24-bit value `v` in the three bytes from `base` on. -/
def HoldsField (s : State) (base : Nat) (v : Data24) : Prop :=
  ∀ k < 3, memLookup s.pkt (base + k) = some (fieldByte v k)

theorem readField24_eq_ok_iff_holdsField : readField24 s base = .ok v ↔ HoldsField s base v := by
  rw [readField24_eq_ok]
  constructor
  · rintro ⟨a, b, c, h0, h1, h2, hv⟩ k hk
    obtain ⟨hab, hc⟩ := append_inj ((ofFieldBytes_fieldByte v).trans hv)
    obtain ⟨ha, hb⟩ := append_inj hab
    interval_cases k
    · rw [ha]; exact h0
    · rw [hb]; exact h1
    · rw [hc]; exact h2
  · exact fun h => ⟨_, _, _, h 0 (by decide), h 1 (by decide), h 2 (by decide), (ofFieldBytes_fieldByte v).symm⟩

/-- A command that answers with a 24-bit field answers `v` exactly where the field holds it (R102, R104). -/
theorem afterRead_readField24_eq_answered_iff :
    (afterRead (readField24 s base) fun v => complete v s) = .next (answered (v.setWidth 32) s) ↔
      HoldsField s base v := by
  rw [← readField24_eq_ok_iff_holdsField, afterRead_eq_next]
  constructor
  · rintro ⟨d, hd, hresp⟩
    rw [complete_eq_answered] at hresp
    have hword : d.setWidth 32 = v.setWidth 32 :=
      responses_answered_eq_iff.1 (congrArg State.responses (Host.Outcome.next.inj hresp))
    have hdv := congrArg (BitVec.setWidth 24) hword
    rw [BitVec.setWidth_setWidth_of_le _ (by decide), BitVec.setWidth_setWidth_of_le _ (by decide),
      BitVec.setWidth_eq, BitVec.setWidth_eq] at hdv
    rwa [← hdv]
  · exact fun h => ⟨v, h, complete_eq_answered ..⟩

theorem exec_getSrc_eq_answered_iff : exec .getSrc s = .next (answered (v.setWidth 32) s) ↔ HoldsField s 4 v :=
  afterRead_readField24_eq_answered_iff

theorem exec_getDst_eq_answered_iff : exec .getDst s = .next (answered (v.setWidth 32) s) ↔ HoldsField s 7 v :=
  afterRead_readField24_eq_answered_iff

/-- A field holds what a 24-bit write at its base has stored (R42). -/
theorem holdsField_writeField24 (s : State) (base : Nat) (v : Data24) :
    HoldsField (writeField24 base v s) base v := by
  intro k hk
  rw [memLookup_writeField24_msb_first]
  interval_cases k <;> simp [fieldByte]

theorem holdsField_of_exec_setSrc (h : exec (.setSrc v) s = .next t) : HoldsField t 4 v := by
  rw [exec_setSrc] at h
  cases h
  exact holdsField_writeField24 s 4 v

theorem holdsField_of_exec_setDst (h : exec (.setDst v) s = .next t) : HoldsField t 7 v := by
  rw [exec_setDst] at h
  cases h
  exact holdsField_writeField24 s 7 v

/-- A field depends on its own three bytes alone. -/
theorem HoldsField.congr (h : HoldsField s base v)
    (hbytes : ∀ k < 3, memLookup t.pkt (base + k) = memLookup s.pkt (base + k)) : HoldsField t base v :=
  fun k hk => (hbytes k hk).trans (h k hk)

/-- After a raw write of one byte of a field, the field holds a value with that byte, and its other bits are those it
held before (R111). -/
theorem exists_holdsField_memWrite (h : HoldsField s base v) (hk : k < 3) (b : Byte) :
    ∃ v', HoldsField (memWrite (base + k) b s) base v' ∧ fieldByte v' k = b ∧
      ∀ i, i < 16 - 8 * k ∨ 24 - 8 * k ≤ i → v'.getLsbD i = v.getLsbD i := by
  have hbyte {j : Nat} (hj : j < 3) := fieldByte_ofFieldBytes (Function.update (fieldByte v) k b) hj
  refine ⟨ofFieldBytes (Function.update (fieldByte v) k b), fun j hj => ?_, ?_, fun i hi => ?_⟩
  · rw [memWrite_pkt, memLookup_memStore, hbyte hj, Function.update_apply, h j hj]
    by_cases hjk : j = k <;> simp [hjk]
  · rw [hbyte hk, Function.update_self]
  · rcases Nat.lt_or_ge i 24 with hlt | hge
    · have hne : 2 - i / 8 ≠ k := by omega
      rw [getLsbD_eq_fieldByte _ hlt, hbyte (by omega), Function.update_of_ne hne, ← getLsbD_eq_fieldByte v hlt]
    · rw [BitVec.getLsbD_of_ge _ i hge, BitVec.getLsbD_of_ge _ i hge]

/-! ## Sequences of commands -/

/-- A sequence's first command is answered, and the sequence goes on from there. -/
theorem execAll_cons_eq_next {i : Instr} : execAll (i :: is) s = .next t ↔
    ∃ u, exec i s = .next u ∧ execAll is u = .next t := by
  rw [execAll]
  split <;> simp [*]

/-- Commands change no byte of PKT but those at the offsets that one of them writes (R41). -/
theorem memLookup_execAll (h : execAll is s = .next t) (ho : ∀ i ∈ is, o ∉ writtenOffsets s.params.pktCap i) :
    memLookup t.pkt o = memLookup s.pkt o := by
  induction is generalizing s with
  | nil =>
    cases h
    rfl
  | cons i is ih =>
    obtain ⟨u, hu, hrest⟩ := execAll_cons_eq_next.1 h
    obtain ⟨hi, his⟩ := List.forall_mem_cons.1 ho
    rw [← (params_hostMoves_of_exec hu).1] at his
    exact (ih hrest his).trans (memLookup_exec_of_not_mem_writtenOffsets hu hi)

/-- One CRC_BYTE for each byte, then CRC_READ: each answers, and the last with the fold (R88). -/
theorem execAll_crcBytes_crcRead (d : List Byte) (s : State) :
    execAll (d.map .crcByte ++ [.crcRead]) s = .next
      { s with
        acc := crcFold s.params.crcPoly s.acc d
        responses := s.responses ++ List.replicate d.length 0#32 ++
          [(crcFold s.params.crcPoly s.acc d).setWidth 32] } := by
  induction d generalizing s with
  | nil =>
    rw [List.map_nil, List.nil_append, execAll_cons_of_next (exec_crcRead s), execAll]
    simp [answered, crcFold]
  | cons b d ih =>
    rw [List.map_cons, List.cons_append, execAll_cons_of_next (exec_crcByte b s), ih]
    simp [answered, crcFold, List.replicate_succ]

/-! ## Bytes held in PKT -/

/-- The bytes of two sequences are held one after the other. -/
theorem holdsBytes_of_append {d e : List Byte} (h : HoldsBytes s o (d ++ e)) :
    HoldsBytes s o d ∧ HoldsBytes s (o + d.length) e := by
  constructor
  · intro k hk
    rw [h k (by rw [List.length_append]; omega), List.getElem_append_left hk]
  · intro k hk
    rw [Nat.add_assoc, h (d.length + k) (by rw [List.length_append]; omega),
      List.getElem_append_right (Nat.le_add_right ..)]
    simp

/-- A written range holds some bytes, as many as it has offsets. -/
theorem exists_holdsBytes {n : Nat} (h : ∀ k < n, memLookup s.pkt (o + k) ≠ none) :
    ∃ d : List Byte, d.length = n ∧ HoldsBytes s o d := by
  obtain ⟨d, hd⟩ := exists_memReadRange_eq_ok h
  exact ⟨d, memReadRange_eq_ok.1 hd⟩

/-- The byte last stored at an offset is held there. -/
theorem holdsBytes_memWrite (s : State) (o : Nat) (b : Byte) : HoldsBytes (memWrite o b s) o [b] := by
  intro k hk
  obtain rfl : k = 0 := Nat.lt_one_iff.1 hk
  simp

/-! ## Reads of unwritten bytes (I1) -/

/-- A field read names the first of its bytes that nothing has written. -/
theorem readField24_of_unwritten (hk : k < 3) (hbefore : ∀ j < k, memLookup s.pkt (base + j) ≠ none)
    (hnone : memLookup s.pkt (base + k) = none) : readField24 s base = .error (.unwrittenByte (base + k)) := by
  rw [readField24_eq_error]
  interval_cases k
  · exact .inl ⟨hnone, rfl⟩
  · exact .inr (.inl ⟨hbefore 0 (by decide), hnone, rfl⟩)
  · exact .inr (.inr ⟨hbefore 0 (by decide), hbefore 1 (by decide), hnone, rfl⟩)

/-! ## The obligations -/

/-- Settles O25, from the error of each kind of read. -/
theorem unwrittenReadsStop : Obligations.UnwrittenReadsStop := by
  refine ⟨fun s off hin hnone => ?_, fun s hnone => ?_, fun s k hk hbefore hnone => ?_,
    fun s k hk hbefore hnone => ?_, fun s off cnt k hin hk hbefore hnone => ?_⟩
  · rw [exec_pktRdb, if_pos hin, memRead_eq_error.2 ⟨hnone, rfl⟩, afterRead_error]
  · rw [exec, execGetPlen, offLen, memRead_eq_error.2 ⟨hnone, rfl⟩, afterRead_error]
  · rw [exec, execGetSrc, offSrc, readField24_of_unwritten hk hbefore hnone, afterRead_error]
  · rw [exec, execGetDst, offDst, readField24_of_unwritten hk hbefore hnone, afterRead_error]
  · rw [exec_crcBuf, if_pos hin, memReadRange_eq_error.2 ⟨k, hk, hbefore, hnone, rfl⟩, afterRead_error]

/-- Settles O30: the byte just stored is what each reading command finds. -/
theorem everyOffsetInRangeIsReadableAndWritable : Obligations.EveryOffsetInRangeIsReadableAndWritable := by
  intro s off b hin
  have hstored := holdsBytes_memWrite s off.toNat b
  refine ⟨answered 0#32 (memWrite off.toNat b s), ?_, exec_pktRdb_of_memLookup hin (hstored 0 Nat.zero_lt_one), _,
    exec_crcBuf_of_holdsBytes (d := [b]) hin rfl hstored, rfl⟩
  rw [exec_pktWrb, if_pos hin]

/-- Settles O44: CRC_LOAD sets the start value, the bytes are folded into it, and CRC_READ answers with it. -/
theorem commandSequencesComputeCrc16 : Obligations.CommandSequencesComputeCrc16 := by
  refine ⟨fun s init off cnt d hin hlen hd => ?_, fun s init d => ?_⟩
  · rw [execAll_cons_of_next (exec_crcLoad init s), execAll_cons_of_next
      (exec_crcBuf_of_holdsBytes (s := answered 0#32 { s with acc := init }) hin hlen hd),
      execAll_cons_of_next (exec_crcRead _), execAll]
    simp [answered]
  · rw [List.cons_append, execAll_cons_of_next (exec_crcLoad init s), execAll_crcBytes_crcRead]
    simp [answered, List.replicate_succ]

/-- Settles O49: the range holds the bytes of its two parts, and the fold goes on from the first part's. -/
theorem checksumContinuesAcrossASplit : Obligations.ChecksumContinuesAcrossASplit := by
  refine ⟨crcFold_append, fun s t off cnt off2 cnt2 cnt3 hoff2 hcnt3 h hwritten hin => ?_⟩
  obtain ⟨d, hlen, hd⟩ := exists_holdsBytes hwritten
  obtain ⟨d, e, rfl, hdlen⟩ : ∃ d₁ e, d = d₁ ++ e ∧ d₁.length = cnt.toNat :=
    ⟨d.take cnt.toNat, d.drop cnt.toNat, (List.take_append_drop ..).symm, by rw [List.length_take]; omega⟩
  rw [List.length_append] at hlen
  obtain ⟨hfirst, hsecond⟩ := holdsBytes_of_append hd
  rw [hdlen, ← hoff2] at hsecond
  have hone := exec_crcBuf_of_holdsBytes (s := s) (by omega) hdlen hfirst
  have htwo := exec_crcBuf_of_holdsBytes (cnt := cnt2)
    (s := answered 0#32 { s with acc := crcFold s.params.crcPoly s.acc d }) (by simp only [answered]; omega)
    (by omega) hsecond
  rw [execAll_cons_of_next hone, execAll_cons_of_next htwo, execAll] at h
  cases h
  exact ⟨_, exec_crcBuf_of_holdsBytes hin (by rw [List.length_append]; omega) hd, crcFold_append ..⟩

/-- Settles O53: none of the commands between writes a byte of the field. -/
theorem addressFieldsReadBack : Obligations.AddressFieldsReadBack := by
  refine ⟨fun s t u v is hset hall hkeep => ?_, fun s t u v is hset hall hkeep => ?_⟩
  · rw [← (params_hostMoves_of_exec hset).1] at hkeep
    refine exec_getSrc_eq_answered_iff.2 ((holdsField_of_exec_setSrc hset).congr fun k hk => ?_)
    exact memLookup_execAll hall fun i hi hmem => by have := hkeep i hi _ hmem; omega
  · rw [← (params_hostMoves_of_exec hset).1] at hkeep
    refine exec_getDst_eq_answered_iff.2 ((holdsField_of_exec_setDst hset).congr fun k hk => ?_)
    exact memLookup_execAll hall fun i hi hmem => by have := hkeep i hi _ hmem; omega

/-- Settles O54: LEN still holds (n + 9) mod 256, and GET_PLEN takes the 9 away. -/
theorem lengthRoundTrip : Obligations.LengthRoundTrip := by
  intro s t u n is hset hall hkeep
  rw [exec_setLen] at hset
  cases hset
  have hlen : memLookup u.pkt 0 = some (lenByte n) :=
    (memLookup_execAll hall fun i hi hmem => hkeep i hi 0 hmem rfl).trans (by simp)
  refine ⟨_, exec_getPlen_of_memLookup hlen, ?_⟩
  have hn : n.toNat < 2 ^ 8 := n.isLt
  rw [toInt_sextInt_payloadLength, toNat_lenByte]
  split <;> omega

/-- Settles O55: neither write is at an offset of the other's field. -/
theorem srcAndDstDoNotInterfere : Obligations.SrcAndDstDoNotInterfere := by
  intro s a b is his
  have hsrc (s : State) := exec_setSrc a s
  have hdst (s : State) := exec_setDst b s
  have hsrcKeeps {s t : State} {o : Nat} (h : exec (.setSrc a) s = .next t) (ho : o < 4 ∨ 6 < o) :
      memLookup t.pkt o = memLookup s.pkt o :=
    memLookup_exec_of_not_mem_writtenOffsets h (by simp [writtenOffsets, offSrc]; omega)
  have hdstKeeps {s t : State} {o : Nat} (h : exec (.setDst b) s = .next t) (ho : o < 7 ∨ 9 < o) :
      memLookup t.pkt o = memLookup s.pkt o :=
    memLookup_exec_of_not_mem_writtenOffsets h (by simp [writtenOffsets, offDst]; omega)
  rcases his with rfl | rfl
  · refine ⟨_, (execAll_cons_of_next (hsrc s)).trans (execAll_cons_of_next (hdst _)),
      exec_getSrc_eq_answered_iff.2 ((holdsField_of_exec_setSrc (hsrc s)).congr fun k hk =>
        hdstKeeps (hdst _) (by omega)),
      exec_getDst_eq_answered_iff.2 (holdsField_of_exec_setDst (hdst _)), rfl, fun o ho => ?_⟩
    exact (hdstKeeps (hdst _) (by omega)).trans (hsrcKeeps (hsrc s) (by omega))
  · refine ⟨_, (execAll_cons_of_next (hdst s)).trans (execAll_cons_of_next (hsrc _)),
      exec_getSrc_eq_answered_iff.2 (holdsField_of_exec_setSrc (hsrc _)),
      exec_getDst_eq_answered_iff.2 ((holdsField_of_exec_setDst (hdst s)).congr fun k hk =>
        hsrcKeeps (hsrc _) (by omega)), rfl, fun o ho => ?_⟩
    exact (hsrcKeeps (hsrc _) (by omega)).trans (hdstKeeps (hdst s) (by omega))

/-- Settles O56: both kinds of access go through the bytes of the buffer. -/
theorem rawAndFieldAccessAgree : Obligations.RawAndFieldAccessAgree := by
  refine ⟨fun s t off b v k hk hoff hget hin hwrite => ?_, fun s t off b v k hk hoff hget hin hwrite => ?_,
    fun s t off v k hk hoff hin hset => ?_, fun s t n hin hset => ?_⟩
  · rw [exec_pktWrb, if_pos hin, hoff] at hwrite
    cases hwrite
    obtain ⟨v', hv', hbyte, hbits⟩ := exists_holdsField_memWrite (exec_getSrc_eq_answered_iff.1 hget) hk b
    exact ⟨v', exec_getSrc_eq_answered_iff.2 hv', hbyte, hbits⟩
  · rw [exec_pktWrb, if_pos hin, hoff] at hwrite
    cases hwrite
    obtain ⟨v', hv', hbyte, hbits⟩ := exists_holdsField_memWrite (exec_getDst_eq_answered_iff.1 hget) hk b
    exact ⟨v', exec_getDst_eq_answered_iff.2 hv', hbyte, hbits⟩
  · rw [← (params_hostMoves_of_exec hset).1] at hin
    exact exec_pktRdb_of_memLookup hin (hoff ▸ holdsField_of_exec_setSrc hset k hk)
  · rw [exec_setLen] at hset
    cases hset
    rw [← toNat_lenByte, BitVec.ofNat_toNat]
    exact exec_pktRdb_of_memLookup hin (by simp)

end Sys2Proof.Proofs
end
